-- ==== Sys2Proof/Word.lean ====
section
/-! DEFINITION. The word types of the base32 codec block: registers, addresses, bytes and 5-bit lanes. -/

namespace Sys2Proof

/-- A register of the register window, or a command word: `REG_W = 32` bits (00_scope R4). -/
abbrev Word := BitVec 32

/-- A buffer-memory address: `ADDR_W = 32` bits (00_scope R4, 20_memory R40). -/
abbrev Addr := BitVec 32

/-- A byte, or a symbol (00_scope R7). -/
abbrev Byte := BitVec 8

/-- The 5-bit value one symbol carries (40_datapath R80, R84). -/
abbrev Lane := BitVec 5

end Sys2Proof
end

