-- ==== Sys2Proof/Config.lean ====
section
/-! DEFINITION. What an implementation fixes, and the free values: constants without a body, so that no
proof can see a value of one. -/

namespace Sys2Proof

/-- The number of buffer-memory bytes, `2^ADDR_W` (00_scope R4, 20_memory R40). -/
def Config.memSize : Nat := 2 ^ 32

/-- `LEN_MAX`, the largest representable length (00_scope R4). -/
def Config.lenMax : Nat := 2 ^ 32 - 1

/-- `REG_BASE`, the host address of the register window: OPEN (00_scope R4, decision D4). -/
opaque Config.regBase : Nat

/-- The draw of 70_reset R191 and R192: `draw t a` is the byte that the read (or the interrupted write)
numbered `t` finds (or leaves) at address `a`. Different reads have different numbers, so they may differ. -/
opaque Config.draw : Nat → Nat → Byte

/-- The 5-bit value of a lane whose byte was accepted as a symbol and is read back as something else, which
only a byte never written can do (70_reset R191, 20_memory R47): `freeLane t i`, read `t`, position `i`. -/
opaque Config.freeLane : Nat → Nat → Lane

/-- Byte `i` of DECODE's output where the pads counted in the data pass are not those validated, which only
bytes never written can bring about (70_reset R191, 43_decode R150). -/
opaque Config.freeOut : Nat → Nat → Byte

end Sys2Proof
end

