-- ==== Sys2Proof/Syntax.lean ====
section
/-! DEFINITION. The commands of the block: one constructor per row of spec/opcode_table.json. -/

namespace Sys2Proof

/-- A legal command (30_encoding R61, R63). The only operand a command word carries is `CNT`, and
the table gives each legal `CNT` of ENCBLK a row of its own, so no constructor has an argument.
Every other operand is latched from the registers (30_encoding R62). -/
inductive Instr where
  /-- ENCLEN, word `0x00000001` (41_length R100). -/
  | enclen
  /-- ENCODE, word `0x00000002` (42_encode R120). -/
  | encode
  /-- DECODE, word `0x00000003` (43_decode R150). -/
  | decode
  /-- DECLEN, word `0x00000004` (43_decode R145). -/
  | declen
  /-- ENCBLK with `CNT = 1`, word `0x00000015` (42_encode R110). -/
  | encblk1
  /-- ENCBLK with `CNT = 2`, word `0x00000025` (42_encode R110). -/
  | encblk2
  /-- ENCBLK with `CNT = 3`, word `0x00000035` (42_encode R110). -/
  | encblk3
  /-- ENCBLK with `CNT = 4`, word `0x00000045` (42_encode R110). -/
  | encblk4
  /-- ENCBLK with `CNT = 5`, word `0x00000055` (42_encode R110). -/
  | encblk5
  /-- DECBLK, word `0x00000006` (43_decode R140). -/
  | decblk
  deriving DecidableEq, Repr

end Sys2Proof
end

