-- ==== Sys2Proof/WellFormed.lean ====
section
/-! DEFINITION. The fields of a command word (format CMD32) and the checks that make them legal. -/

namespace Sys2Proof

/-- The three fields of format `CMD32` (30_encoding R60). -/
structure CmdFields where
  /-- `OPC`, bits 3:0. -/
  opc : BitVec 4
  /-- `CNT`, bits 6:4. -/
  cnt : BitVec 3
  /-- `RSV`, bits 31:7. -/
  rsv : BitVec 25
  deriving DecidableEq, Repr

/-- `RSV` must be 0 (30_encoding R60, R63). -/
def CmdFields.reservedZero (f : CmdFields) : Bool := f.rsv == 0

/-- `OPC` is one of the six assigned values (30_encoding R61). -/
def CmdFields.opcodeAssigned (f : CmdFields) : Bool :=
  decide (1 ≤ f.opc.toNat) && decide (f.opc.toNat ≤ 6)

/-- `CNT` is in `1..5` for ENCBLK and 0 for every other operation (30_encoding R60, R62). -/
def CmdFields.countLegal (f : CmdFields) : Bool :=
  if f.opc == 5 then decide (1 ≤ f.cnt.toNat) && decide (f.cnt.toNat ≤ 5) else f.cnt == 0

/-- The fields of a legal command word: all three checks (30_encoding R63, R64). -/
def CmdFields.wf (f : CmdFields) : Bool := f.reservedZero && f.opcodeAssigned && f.countLegal

end Sys2Proof
end

