-- ==== Sys2Proof/Decode.lean ====
section
/-! DEFINITION. Command decode (30_encoding R63), total on all `2^32` words and rejecting by name, and
after it the encoder, from the field table of 30_encoding R60 and R61. -/

namespace Sys2Proof

/-- Why a word is `ILLEGAL` (30_encoding R64). The block reports all three alike. -/
inductive DecodeError where
  /-- `RSV` is not 0. -/
  | reservedBits
  /-- `OPC` is `0x0` or `0x7..0xF`. -/
  | reservedOpcode
  /-- `CNT` is not 0 with an opcode other than ENCBLK, or in `0, 6, 7` with ENCBLK. -/
  | illegalCount
  deriving DecidableEq, Repr

/-- `w[3:0]`, `w[6:4]` and `w[31:7]` (30_encoding R60). -/
def cmdFields (w : Word) : CmdFields :=
  { opc := w.extractLsb' 0 4, cnt := w.extractLsb' 4 3, rsv := w.extractLsb' 7 25 }

/-- The command of legal opcode and count, `RSV` being 0 (30_encoding R61, R63). -/
def decodeOpcode (opc cnt : Nat) : Except DecodeError Instr :=
  match opc, cnt with
  | 1, 0 => .ok .enclen
  | 2, 0 => .ok .encode
  | 3, 0 => .ok .decode
  | 4, 0 => .ok .declen
  | 5, 1 => .ok .encblk1
  | 5, 2 => .ok .encblk2
  | 5, 3 => .ok .encblk3
  | 5, 4 => .ok .encblk4
  | 5, 5 => .ok .encblk5
  | 6, 0 => .ok .decblk
  | o, _ => if 1 ≤ o ∧ o ≤ 6 then .error .illegalCount else .error .reservedOpcode

/-- `decodeCmd(w)` of 30_encoding R63; its `ILLEGAL` is an error with a name. -/
def decodeWord (w : Word) : Except DecodeError Instr :=
  if (cmdFields w).rsv = 0 then decodeOpcode (cmdFields w).opc.toNat (cmdFields w).cnt.toNat
  else .error .reservedBits

/-- The fields of a command's word (30_encoding R61). -/
def fieldsOf : Instr → CmdFields
  | .enclen => { opc := 1, cnt := 0, rsv := 0 }
  | .encode => { opc := 2, cnt := 0, rsv := 0 }
  | .decode => { opc := 3, cnt := 0, rsv := 0 }
  | .declen => { opc := 4, cnt := 0, rsv := 0 }
  | .encblk1 => { opc := 5, cnt := 1, rsv := 0 }
  | .encblk2 => { opc := 5, cnt := 2, rsv := 0 }
  | .encblk3 => { opc := 5, cnt := 3, rsv := 0 }
  | .encblk4 => { opc := 5, cnt := 4, rsv := 0 }
  | .encblk5 => { opc := 5, cnt := 5, rsv := 0 }
  | .decblk => { opc := 6, cnt := 0, rsv := 0 }

/-- Fields laid out as a word: `RSV`, `CNT`, `OPC`, most significant first (30_encoding R60). -/
def packFields (f : CmdFields) : Word := f.rsv ++ f.cnt ++ f.opc

/-- The word of a command. -/
def encodeInstr (i : Instr) : Word := packFields (fieldsOf i)

/-- A command is well formed when the fields of its word pass every check; every one is. -/
def wellFormed (i : Instr) : Bool := (fieldsOf i).wf

/-- The command word of a table row: its low `nbits` bits are `w`'s, the rest are 0. A command is one
32-bit word written whole (30_encoding R60, R65), so there is no byte order to lay out. -/
def tableWord (nbits w : Nat) : Word := BitVec.ofNat 32 (w % 2 ^ nbits)

/-- What the decoder reads from the word of a table row; `none` where it refuses. -/
def decodeTableWord (nbits w : Nat) : Option Instr :=
  match decodeWord (tableWord nbits w) with
  | .ok i => some i
  | .error _ => none

end Sys2Proof
end

