-- ==== Sys2Proof/Machine/State.lean ====
section
/-! DEFINITION. The state of the block: every register and flag of the register window, the latched operands
of the command in flight, the buffer memory, and the interleaving of the agents' steps as plain data. -/

namespace Sys2Proof.Machine

/-- Buffer memory (20_memory R40): the bytes written so far, as address and byte, in rising order of
address. An unlisted byte has no known value (70_reset R191). -/
abbrev Memory := List Host.Cell

/-- The canonical form: addresses strictly rising, and every one below `2^32` (20_memory R40). No byte value
stands for an unlisted address, so no entry is redundant. -/
abbrev Memory.wf (m : Memory) : Prop :=
  m.Pairwise (fun x y => x.1 < y.1) ∧ ∀ c ∈ m, c.1 < 2 ^ 32

/-- The values latched when a command is accepted, `lat.*` (10_state R31, R34). -/
structure Latched where
  /-- `lat.CMD`, the command word. -/
  cmd : Word
  /-- `lat.SRC_ADDR`. -/
  srcAddr : Addr
  /-- `lat.SRC_LEN`. -/
  srcLen : Word
  /-- `lat.DST_ADDR`. -/
  dstAddr : Addr
  /-- `lat.DST_CAP`. -/
  dstCap : Word
  /-- `lat.GRP`, 40 bits: byte `k` of the group is `lat.GRP[8k+7:8k]`. -/
  grp : BitVec 40
  /-- `lat.SYM`, 64 bits: symbol `j` of the block is `lat.SYM[8j+7:8j]`. -/
  sym : BitVec 64
  deriving DecidableEq, Repr

/-- One step of one agent or of the environment (10_state R30). -/
inductive Event where
  /-- HOST reads `bytes` bytes of its address map at `addr` (10_state R12, R29). -/
  | regRead (addr bytes : Nat)
  /-- HOST writes `value` to `bytes` bytes of its address map at `addr` (10_state R12, R29). -/
  | regWrite (addr bytes : Nat) (value : Word)
  /-- HOST loads one byte of buffer memory (20_memory R40). -/
  | memRead (addr : Addr)
  /-- HOST stores one byte of buffer memory (20_memory R40). -/
  | memWrite (addr : Addr) (value : Byte)
  /-- HOST looks at the interrupt line (60_exceptions R170, 20_memory R51). -/
  | irqSample
  /-- CODEC's turn: the completion step where a command is in flight (10_state R32). -/
  | codec
  /-- The environment applies reset (70_reset R190). -/
  | reset
  deriving DecidableEq, Repr

/-- What the host last got back from the block and the memory; the model's own record of it. -/
structure HostView where
  /-- The last register read's value. -/
  word : Word
  /-- The last memory read's byte. -/
  byte : Byte
  /-- The interrupt line as last looked at. -/
  irq : Bool
  deriving DecidableEq, Repr

/-- The state of the block (10_state R12 to R37), its buffer memory, and the model's own fields. -/
structure State where
  /-- `CTRL.IRQ_EN` (10_state R14). -/
  irqEn : Bool
  /-- `STATUS.BUSY` (10_state R15). -/
  busy : Bool
  /-- `STATUS.DONE` (10_state R15). -/
  done : Bool
  /-- `STATUS.ERR` (10_state R15). -/
  err : Bool
  /-- `STATUS.OVR` (10_state R15). -/
  ovr : Bool
  /-- `SRC_ADDR` (10_state R17). -/
  srcAddr : Addr
  /-- `SRC_LEN` (10_state R18). -/
  srcLen : Word
  /-- `DST_ADDR` (10_state R19). -/
  dstAddr : Addr
  /-- `DST_CAP` (10_state R20). -/
  dstCap : Word
  /-- `RESULT` (10_state R21). -/
  result : Word
  /-- `ERRCODE.CODE` (10_state R22). -/
  errCode : BitVec 4
  /-- `ERRPOS` (10_state R23). -/
  errPos : Word
  /-- `GRP_LO` (10_state R24). -/
  grpLo : Word
  /-- `GRP_HI[7:0]` (10_state R25). -/
  grpHi : Byte
  /-- `SYM_LO` (10_state R26). -/
  symLo : Word
  /-- `SYM_HI` (10_state R27). -/
  symHi : Word
  /-- `lat.*` (10_state R31, R34): meaningful while `busy`, and read by nothing otherwise. -/
  lat : Latched
  /-- The buffer memory (20_memory R40). -/
  mem : Memory
  /-- The model's own: the agents' steps still to come, the next one first (10_state R30). -/
  sched : List Event
  /-- The model's own: the operands of every accepted command whose completion the host has not observed
  (70_reset R195), the newest first. -/
  unobserved : List Latched
  /-- The model's own: how many draws have been spent (70_reset R191, R192). -/
  draws : Nat
  /-- The model's own: what the host last got back. -/
  host : HostView
  deriving DecidableEq, Repr

/-- The names of the error codes (60_exceptions R160). -/
inductive ErrCode where
  | bufferTooSmall
  | invalidLength
  | invalidPadding
  | invalidCharacter
  | overflow
  | illegalCommand
  | range
  | overlap
  deriving DecidableEq, Repr

/-- An error with its position: the `E(pos)` of `raise E(pos)` (00_scope R6, 60_exceptions R163). -/
structure Failure where
  code : ErrCode
  pos : Nat
  deriving DecidableEq, Repr

/-- Why a step can stop with a fault. -/
inductive Fault where
  /-- `HAZARD_BUFFER` (70_reset R195): raised by a host load or store of buffer memory that touches the regions
  of a command whose completion the host has not observed. Safe: the hardware goes on with an unspecified
  result, and the spec asks for a fault. -/
  | hazardBuffer
  deriving DecidableEq, Repr

/-- Why a step can be refused. -/
inductive Refusal where
  /-- Raised by an arm of exec for an instruction without a meaning; no arm of this model is one. Safe. -/
  | notModelled (mnemonic : String)
  /-- Raised by a host access to the register window of a width other than 32 bits (10_state R29). Safe: the
  spec gives such an access no effect and asks for a refusal. -/
  | registerWidth
  /-- Raised by a 32-bit host access to the register window at an offset that is not a multiple of 4
  (10_state R29). Safe, as above. -/
  | registerAlignment
  deriving DecidableEq, Repr

/-- The latched values after reset: the spec says undefined and unreadable (10_state R37), the model holds 0
(DESIGN CHOICE, log entry 3). -/
def Latched.zero : Latched :=
  { cmd := 0, srcAddr := 0, srcLen := 0, dstAddr := 0, dstCap := 0, grp := 0, sym := 0 }

/-- The machine right after power-on reset (10_state R37, 70_reset R190, R191, R193): every register 0, no
command in flight, no byte of buffer memory known, and no agent's step laid down yet. -/
def State.reset : State :=
  { irqEn := false, busy := false, done := false, err := false, ovr := false
    srcAddr := 0, srcLen := 0, dstAddr := 0, dstCap := 0
    result := 0, errCode := 0, errPos := 0
    grpLo := 0, grpHi := 0, symLo := 0, symHi := 0
    lat := Latched.zero, mem := []
    sched := [], unobserved := [], draws := 0
    host := { word := 0, byte := 0, irq := false } }

end Sys2Proof.Machine
end

