-- ==== Sys2Proof/Machine/Datapath.lean ====
section
/-! DEFINITION. The pure functions of the two pipelines (40_datapath): the alphabet and its reverse, group layout
and padding control, validation, packing, and the length functions. A buffer or a block is a function from
position to byte. -/

namespace Sys2Proof.Machine

/-! ### Look-up tables (R80 to R83) -/

/-- `ALPHA[v]` (R80): `'A'..'Z'` for 0..25, `'2'..'7'` for 26..31. -/
def alpha (v : Lane) : Byte :=
  if v.toNat ≤ 25 then BitVec.ofNat 8 (0x41 + v.toNat) else BitVec.ofNat 8 (0x32 + (v.toNat - 26))

/-- `PAD`, the character `=` (R81). -/
def padByte : Byte := 0x3D

/-- The three classes of a symbol (00_scope R7, 40_datapath R82). -/
inductive SymClass where
  | sym (v : Lane)
  | pad
  | bad
  deriving DecidableEq, Repr

/-- `RALPHA[c]` (R82). -/
def ralpha (c : Byte) : SymClass :=
  if 0x41 ≤ c.toNat ∧ c.toNat ≤ 0x5A then .sym (BitVec.ofNat 5 (c.toNat - 0x41))
  else if 0x32 ≤ c.toNat ∧ c.toNat ≤ 0x37 then .sym (BitVec.ofNat 5 (c.toNat - 0x18))
  else if c = padByte then .pad
  else .bad

/-! ### Lengths and counts (R85, R86, R88) -/

/-- `ceil_div(a, b)` (00_scope R6). -/
def divUp (a b : Nat) : Nat := (a + (b - 1)) / b

/-- `encoded_length(n)` (R88), exact. -/
def encodedLength (n : Nat) : Nat := divUp n 5 * 8

/-- `S(r)`, the real symbols of a group of `r` bytes (R85). -/
def realSymbols (r : Nat) : Nat := divUp (8 * r) 5

/-- `P(r)`, the pads of a group of `r` bytes (R85). -/
def padsFor (r : Nat) : Nat := 8 - realSymbols r

/-- The pad counts a final block may have (R86). -/
def padCountValid (p : Nat) : Bool := p == 0 || p == 1 || p == 3 || p == 4 || p == 6

/-- `B(p)`, the bytes of a final block with `p` pads (R86); asked of valid counts only. -/
def byteCount (p : Nat) : Nat :=
  match p with
  | 0 => 5
  | 1 => 4
  | 3 => 3
  | 4 => 2
  | 6 => 1
  | _ => 0

/-- `U(p)`, the unused bits of the last real symbol (R86). -/
def unusedBits (p : Nat) : Nat := 5 * (8 - p) - 8 * byteCount p

/-! ### Encoder (R84, R87, R89) -/

/-- The 40-bit value of a group: byte 0 is the most significant (R84). -/
def groupWord (g : Nat → Byte) : BitVec 40 := g 0 ++ g 1 ++ g 2 ++ g 3 ++ g 4

/-- The group with the bytes at or past `r` replaced by zero (R87). -/
def zeroFill (g : Nat → Byte) (r k : Nat) : Byte := if k < r then g k else 0

/-- The 5-bit value of lane `j`: `W[39-5j : 35-5j]` (R84). -/
def laneOf (w : BitVec 40) (j : Nat) : Lane := w.extractLsb' (35 - 5 * j) 5

/-- `EncBlock(g, r)`, its symbol `j` (R87). -/
def encSymbol (g : Nat → Byte) (r j : Nat) : Byte :=
  if j < realSymbols r then alpha (laneOf (groupWord (zeroFill g r)) j) else padByte

/-- Symbol `i` of the encoding of the `n` bytes `src`: symbol `i mod 8` of group `i / 8`, which has
`min(5, n - 5k)` bytes (R89, 42_encode R120). -/
def encodedByte (src : Nat → Byte) (n i : Nat) : Byte :=
  encSymbol (fun q => src (5 * (i / 8) + q)) (min 5 (n - 5 * (i / 8))) (i % 8)

/-! ### Validation (R90) -/

/-- The ascending scan of `Validate` over `fuel` positions from `i` on; the block that starts at `m - 8` is the
final one (R90). -/
def scanSymbols (sym : Nat → Byte) (m : Nat) : Nat → Nat → Bool → Option Failure
  | 0, _, _ => none
  | fuel + 1, i, seenPad =>
    match ralpha (sym i) with
    | .bad => some { code := .invalidCharacter, pos := i }
    | .pad =>
      if m - 8 ≤ i then scanSymbols sym m fuel (i + 1) true
      else some { code := .invalidPadding, pos := i }
    | .sym _ =>
      if seenPad then some { code := .invalidPadding, pos := i }
      else scanSymbols sym m fuel (i + 1) seenPad

/-- The number of pads in the final block of `m` symbols (R90). -/
def padCount (sym : Nat → Byte) (m : Nat) : Nat :=
  (List.range 8).countP (fun j => sym (m - 8 + j) == padByte)

/-- `RALPHA[c].value` (R82); where the byte is no alphabet symbol the value is open, and `free` stands for it. -/
def laneValue (free : Lane) (c : Byte) : Lane :=
  match ralpha c with
  | .sym v => v
  | .pad => free
  | .bad => free

/-- The low `u` bits of `v` are not all zero (R90). -/
def unusedNonZero (u : Nat) (v : Lane) : Bool := v.toNat % 2 ^ u != 0

/-- `Validate` after its scan (R90): the pad count of the final block of `last`, and the unused bits of its last real
symbol, `value i` being the 5-bit value of position `i`. -/
def finalVerdict (value : Nat → Lane) (last : Nat → Byte) (m : Nat) : Except Failure Nat :=
  if padCountValid (padCount last m) then
    if 0 < unusedBits (padCount last m) ∧
        unusedNonZero (unusedBits (padCount last m)) (value (m - padCount last m - 1)) = true then
      .error { code := .invalidCharacter, pos := m - padCount last m - 1 }
    else .ok (padCount last m)
  else .error { code := .invalidPadding, pos := m - padCount last m }

/-- `Validate` (R90), for `m > 0` with `m mod 8 = 0`, with the symbols scanned as `sym` and the final block read
again as `last` (20_memory R47): the pad count of the final block, or the first error. -/
def validateReread (value : Nat → Lane) (sym last : Nat → Byte) (m : Nat) : Except Failure Nat :=
  match scanSymbols sym m m 0 false with
  | some f => .error f
  | none => finalVerdict value last m

/-- `Validate` (R90) of one reading of the symbols. The value 0 of a byte that is no symbol is not asked for: after a
scan without error, the position before the pads of the same reading is an alphabet symbol. -/
def validate (sym : Nat → Byte) (m : Nat) : Except Failure Nat :=
  validateReread (fun i => laneValue 0 (sym i)) sym sym m

/-! ### Packing and the decoded length (R91, R92) -/

/-- Eight lanes packed into 40 bits, lane 0 the most significant (R91). -/
def lanesWord (v : Nat → Lane) : BitVec 40 := v 0 ++ v 1 ++ v 2 ++ v 3 ++ v 4 ++ v 5 ++ v 6 ++ v 7

/-- `DecBlock`, its byte `k`, over lane values `v` of which those at or past `8 - p` read as zero (R91). -/
def decByte (v : Nat → Lane) (p k : Nat) : Byte :=
  (lanesWord (fun j => if j < 8 - p then v j else 0)).extractLsb' (32 - 8 * k) 8

/-- The decoded length of `m > 0` symbols whose final block has `p` pads (R92). -/
def decodedLength (m p : Nat) : Nat := (m / 8 - 1) * 5 + byteCount p

end Sys2Proof.Machine
end

