-- ==== Sys2Proof/Machine/Ops.lean ====
section
/-! DEFINITION. The named operations over buffer memory and registers, completion reporting (the block's place
of exception entry) and acknowledgement (its place of exception return). -/

namespace Sys2Proof.Machine

/-! ### Buffer memory -/

/-- The byte last written at `a`, if any was (20_memory R51). -/
def memFind : Memory → Nat → Option Byte
  | [], _ => none
  | (b, v) :: rest, a => if b = a then some v else memFind rest a

/-- `MemWrite(a, 1, v)` (00_scope R6): the entry of `a` becomes `v`, in its place in the rising order. -/
def memWrite : Memory → Nat → Byte → Memory
  | [], a, v => [(a, v)]
  | (b, w) :: rest, a, v =>
    if a < b then (a, v) :: (b, w) :: rest
    else if a = b then (a, v) :: rest
    else (b, w) :: memWrite rest a v

/-- `MemRead(a, 1)` (00_scope R6) by the read numbered `t`: the last byte written, or a draw where there was
none (20_memory R51, 70_reset R191). -/
def memRead (m : Memory) (t a : Nat) : Byte := (memFind m a).getD (Config.draw t a)

/-- `n` bytes from address `base` upward: byte `i` becomes `f i` (20_memory R42). Addresses rise and do not
wrap; callers keep `base + n` at or below `2^32`. -/
def memWriteRange (m : Memory) (base : Nat) (f : Nat → Byte) : Nat → Memory
  | 0 => m
  | n + 1 => memWrite (memWriteRange m base f n) (base + n) (f n)

/-- Two draws' numbers are spent: the next read has a number of its own. -/
def spendDraws (s : State) : State := { s with draws := s.draws + 2 }

/-! ### Completion reporting (60_exceptions R161, R162, R166) and acknowledgement (R167) -/

/-- The number of an error code (60_exceptions R160). -/
def errNumber : ErrCode → BitVec 4
  | .bufferTooSmall => 1
  | .invalidLength => 2
  | .invalidPadding => 3
  | .invalidCharacter => 4
  | .overflow => 5
  | .illegalCommand => 6
  | .range => 7
  | .overlap => 8

/-- `finish(v)` (60_exceptions R161). Every `v` is a length below `2^32` (00_scope R4). -/
def finish (v : Nat) (s : State) : State :=
  { s with result := BitVec.ofNat 32 v, errCode := 0, errPos := 0,
           done := true, err := false, busy := false }

/-- `raise E(pos)` (60_exceptions R162). Every position is below `2^32` (60_exceptions R163). -/
def raiseError (f : Failure) (s : State) : State :=
  { s with result := 0, errCode := errNumber f.code, errPos := BitVec.ofNat 32 f.pos,
           err := true, done := false, busy := false }

/-- A host write of `v` to `STATUS`: a 1 in bit 1, 2 or 3 clears `DONE`, `ERR` or `OVR`, a 0 leaves it, and
every other bit is ignored (10_state R15, 60_exceptions R167). -/
def acknowledge (v : Word) (s : State) : State :=
  { s with done := s.done && !v.getLsbD 1, err := s.err && !v.getLsbD 2, ovr := s.ovr && !v.getLsbD 3 }

/-! ### The block registers -/

/-- ENCBLK's output: symbol `j` goes to byte lane `j` of `SYM_HI ++ SYM_LO` (10_state R26, R27, 42_encode R110). -/
def setSymbols (out : Nat → Byte) (s : State) : State :=
  { s with symLo := out 3 ++ out 2 ++ out 1 ++ out 0, symHi := out 7 ++ out 6 ++ out 5 ++ out 4 }

/-- DECBLK's output: byte `k` goes to byte lane `k` of `GRP_HI ++ GRP_LO` (10_state R24, R25, 43_decode R140). -/
def setGroup (out : Nat → Byte) (s : State) : State :=
  { s with grpLo := out 3 ++ out 2 ++ out 1 ++ out 0, grpHi := out 4 }

end Sys2Proof.Machine
end

