-- ==== Sys2Proof/Machine/Flags.lean ====
section
/-! DEFINITION. The flags: `STATUS` and `CTRL` as words, and the interrupt line. -/

namespace Sys2Proof.Machine

/-- `STATUS` as the host reads it: `OVR`, `ERR`, `DONE`, `BUSY` in bits 3 to 0, the reserved bits 0 (10_state R15). -/
def statusWord (s : State) : Word :=
  (0 : BitVec 28) ++ BitVec.ofBool s.ovr ++ BitVec.ofBool s.err ++ BitVec.ofBool s.done ++ BitVec.ofBool s.busy

/-- `CTRL` as the host reads it: `IRQ_EN` in bit 0, the reserved bits 0 (10_state R14). -/
def ctrlWord (s : State) : Word := (0 : BitVec 31) ++ BitVec.ofBool s.irqEn

/-- The interrupt line: `IRQ = CTRL.IRQ_EN AND (STATUS.DONE OR STATUS.ERR)` (60_exceptions R170). -/
def irqLine (s : State) : Bool := s.irqEn && (s.done || s.err)

end Sys2Proof.Machine
end

