-- ==== Sys2Proof/Machine/Operands.lean ====
section
/-! DEFINITION. The operand forms: the register map with its reads and writes, latching, acceptance, the byte
lanes of the latched block registers, and the regions a command names in buffer memory. -/

namespace Sys2Proof.Machine

/-! ### Latching and acceptance (10_state R31, R33) -/

/-- The operand registers, latched with the command word `w` (10_state R31). -/
def latchOperands (w : Word) (s : State) : Latched :=
  { cmd := w, srcAddr := s.srcAddr, srcLen := s.srcLen, dstAddr := s.dstAddr, dstCap := s.dstCap
    grp := s.grpHi ++ s.grpLo, sym := s.symHi ++ s.symLo }

/-- Acceptance of the command word `w` (10_state R31). The host has not observed its completion (70_reset R195). -/
def acceptCommand (w : Word) (s : State) : State :=
  { s with lat := latchOperands w s, busy := true, done := false, err := false
           result := 0, errCode := 0, errPos := 0
           unobserved := latchOperands w s :: s.unobserved }

/-- A host write of `w` to `CMD`: accepted when idle (10_state R31), dropped with `OVR` set while busy (R33). -/
def issueCommand (w : Word) (s : State) : State :=
  if s.busy then { s with ovr := true } else acceptCommand w s

/-! ### The register map (10_state R12) -/

/-- The registers of the window. -/
inductive Reg where
  | id | ctrl | status | cmd | srcAddr | srcLen | dstAddr | dstCap
  | result | errCode | errPos | grpLo | grpHi | symLo | symHi | reserved
  deriving DecidableEq, Repr

/-- The register at a word offset of the window (10_state R12). -/
def regAtOffset (off : Nat) : Reg :=
  match off with
  | 0x00 => .id
  | 0x04 => .ctrl
  | 0x08 => .status
  | 0x0C => .cmd
  | 0x10 => .srcAddr
  | 0x14 => .srcLen
  | 0x18 => .dstAddr
  | 0x1C => .dstCap
  | 0x20 => .result
  | 0x24 => .errCode
  | 0x28 => .errPos
  | 0x2C => .grpLo
  | 0x30 => .grpHi
  | 0x34 => .symLo
  | 0x38 => .symHi
  | _ => .reserved

/-- The value of `ID` (10_state R13, 00_scope R4 `ID_VALUE`). -/
def idWord : Word := 0x42333201

/-- What a host read of a register returns (10_state R12 to R28). It has no side effect (R29). -/
def regRead (r : Reg) (s : State) : Word :=
  match r with
  | .id => idWord
  | .ctrl => ctrlWord s
  | .status => statusWord s
  | .cmd => 0
  | .srcAddr => s.srcAddr
  | .srcLen => s.srcLen
  | .dstAddr => s.dstAddr
  | .dstCap => s.dstCap
  | .result => s.result
  | .errCode => (0 : BitVec 28) ++ s.errCode
  | .errPos => s.errPos
  | .grpLo => s.grpLo
  | .grpHi => (0 : BitVec 24) ++ s.grpHi
  | .symLo => s.symLo
  | .symHi => s.symHi
  | .reserved => 0

/-- The effect of a host write of `v` to a register (10_state R12 to R29): read-only registers and reserved bits
ignore it, `STATUS` clears by ones, `CMD` issues a command, the rest hold what is written, also while busy (R35). -/
def regWrite (r : Reg) (v : Word) (s : State) : State :=
  match r with
  | .id => s
  | .ctrl => { s with irqEn := v.getLsbD 0 }
  | .status => acknowledge v s
  | .cmd => issueCommand v s
  | .srcAddr => { s with srcAddr := v }
  | .srcLen => { s with srcLen := v }
  | .dstAddr => { s with dstAddr := v }
  | .dstCap => { s with dstCap := v }
  | .result => s
  | .errCode => s
  | .errPos => s
  | .grpLo => { s with grpLo := v }
  | .grpHi => { s with grpHi := v.extractLsb' 0 8 }
  | .symLo => { s with symLo := v }
  | .symHi => { s with symHi := v }
  | .reserved => s

/-! ### Byte lanes of the latched block registers (10_state R31, 20_memory R44) -/

/-- Group byte `k`: `lat.GRP[8k+7:8k]`. -/
def groupByte (l : Latched) (k : Nat) : Byte := l.grp.extractLsb' (8 * k) 8

/-- Symbol `j`: `lat.SYM[8j+7:8j]`. -/
def symbolByte (l : Latched) (j : Nat) : Byte := l.sym.extractLsb' (8 * j) 8

/-! ### Regions (20_memory R42, R53, 70_reset R195) -/

/-- Source byte `i` as the read numbered `t` finds it: `MemRead(src + i, 1)` (20_memory R42). -/
def sourceByte (s : State) (t i : Nat) : Byte := memRead s.mem t (s.lat.srcAddr.toNat + i)

/-- How many bytes of source region a command has: `SRC_LEN` for ENCODE, DECODE and DECLEN, none for the rest
(70_reset R195). -/
def sourceLengthOf (i : Instr) (l : Latched) : Nat :=
  match i with
  | .enclen => 0
  | .encode => l.srcLen.toNat
  | .decode => l.srcLen.toNat
  | .declen => l.srcLen.toNat
  | .encblk1 => 0
  | .encblk2 => 0
  | .encblk3 => 0
  | .encblk4 => 0
  | .encblk5 => 0
  | .decblk => 0

/-- How many bytes of destination capacity range a command has: `DST_CAP` for ENCODE and DECODE, none for the
rest (70_reset R195). -/
def destCapacityOf (i : Instr) (l : Latched) : Nat :=
  match i with
  | .enclen => 0
  | .encode => l.dstCap.toNat
  | .decode => l.dstCap.toNat
  | .declen => 0
  | .encblk1 => 0
  | .encblk2 => 0
  | .encblk3 => 0
  | .encblk4 => 0
  | .encblk5 => 0
  | .decblk => 0

/-- `a` lies in the `n` bytes from `base` upward. Addresses end at `2^32`, so the range is clipped there. -/
def inRange (base n a : Nat) : Bool := decide (base ≤ a) && decide (a < base + n)

/-- `a` lies in the source region of the latched command (70_reset R195; empty for an illegal one). -/
def inSource (l : Latched) (a : Nat) : Bool :=
  match decodeWord l.cmd with
  | .ok i => inRange l.srcAddr.toNat (sourceLengthOf i l) a
  | .error _ => false

/-- `a` lies in the destination capacity range of the latched command (70_reset R195; empty for an illegal one). -/
def inDest (l : Latched) (a : Nat) : Bool :=
  match decodeWord l.cmd with
  | .ok i => inRange l.dstAddr.toNat (destCapacityOf i l) a
  | .error _ => false

/-- A host store at `a` violates the buffer hazard rule (70_reset R195). -/
def storeHazard (s : State) (a : Nat) : Bool := s.unobserved.any (fun l => inSource l a || inDest l a)

/-- A host load at `a` violates the buffer hazard rule (70_reset R195). -/
def loadHazard (s : State) (a : Nat) : Bool := s.unobserved.any (fun l => inDest l a)

end Sys2Proof.Machine
end

