-- ==== Sys2Proof/Machine/Encoder.lean ====
section
/-! DEFINITION. The encode commands ENCBLK 1 to 5 and ENCODE (42_encode). -/

namespace Sys2Proof.Machine

/-- `ENCBLK r` (R110): the latched group's block of symbols goes to `SYM_LO` and `SYM_HI`. -/
def encodeBlock (r : Nat) (s : State) : State :=
  finish 8 (setSymbols (encSymbol (groupByte s.lat) r) s)

/-- ENCBLK with `CNT = 1` (R110). -/
def execEncblk1 (s : State) : Host.Outcome State Fault Refusal := .next (encodeBlock 1 s)

/-- ENCBLK with `CNT = 2` (R110). -/
def execEncblk2 (s : State) : Host.Outcome State Fault Refusal := .next (encodeBlock 2 s)

/-- ENCBLK with `CNT = 3` (R110). -/
def execEncblk3 (s : State) : Host.Outcome State Fault Refusal := .next (encodeBlock 3 s)

/-- ENCBLK with `CNT = 4` (R110). -/
def execEncblk4 (s : State) : Host.Outcome State Fault Refusal := .next (encodeBlock 4 s)

/-- ENCBLK with `CNT = 5` (R110). -/
def execEncblk5 (s : State) : Host.Outcome State Fault Refusal := .next (encodeBlock 5 s)

/-- The regions of `len_src` bytes at `src` and `len_dst` bytes at `dst` intersect, both being non-empty
(R120, 43_decode R150). -/
def regionsMeet (src lenSrc dst lenDst : Nat) : Bool :=
  decide (0 < lenSrc) && decide (0 < lenDst) && decide (src < dst + lenDst) && decide (dst < src + lenSrc)

/-- ENCODE's checks in their order, and the length they compute (R120, 60_exceptions R164). -/
def encodeChecks (l : Latched) : Except Failure Nat :=
  if Config.lenMax < encodedLength l.srcLen.toNat then .error { code := .overflow, pos := 0 }
  else if Config.memSize < l.srcAddr.toNat + l.srcLen.toNat then .error { code := .range, pos := 0 }
  else if l.dstCap.toNat < encodedLength l.srcLen.toNat then .error { code := .bufferTooSmall, pos := 0 }
  else if Config.memSize < l.dstAddr.toNat + encodedLength l.srcLen.toNat then .error { code := .range, pos := 1 }
  else if regionsMeet l.srcAddr.toNat l.srcLen.toNat l.dstAddr.toNat (encodedLength l.srcLen.toNat) then
    .error { code := .overlap, pos := 0 }
  else .ok (encodedLength l.srcLen.toNat)

/-- ENCODE (R120 to R122): every check comes before the first write. Each source byte is read once. -/
def execEncode (s : State) : Host.Outcome State Fault Refusal :=
  match encodeChecks s.lat with
  | .ok len =>
    .next (finish len
      { spendDraws s with
        mem := memWriteRange s.mem s.lat.dstAddr.toNat
          (encodedByte (sourceByte s s.draws) s.lat.srcLen.toNat) len })
  | .error f => .next (raiseError f (spendDraws s))

end Sys2Proof.Machine
end

