-- ==== Sys2Proof/Machine/Decoder.lean ====
section
/-! DEFINITION. The decode commands DECBLK, DECLEN and DECODE (43_decode). -/

namespace Sys2Proof.Machine

/-- `DecodedLengthOf` (R130), `verdict` being what `Validate` says of the source bytes: the exact decoded length, or
the first error. -/
def decodedLengthOf (verdict : Except Failure Nat) (src m : Nat) : Except Failure Nat :=
  if m % 8 ≠ 0 then .error { code := .invalidLength, pos := 0 }
  else if Config.memSize < src + m then .error { code := .range, pos := 0 }
  else if m = 0 then .ok 0
  else
    match verdict with
    | .error f => .error f
    | .ok p => .ok (decodedLength m p)

/-- DECBLK's output lane `k`: byte `k` of `DecBlock`, or zero at or past `B(p)` (R140). -/
def decBlkByte (v : Nat → Lane) (p k : Nat) : Byte := if k < byteCount p then decByte v p k else 0

/-- DECBLK (R140): the latched block, taken as a final block, is decoded into `GRP_LO` and `GRP_HI`. -/
def execDecblk (s : State) : Host.Outcome State Fault Refusal :=
  match validate (symbolByte s.lat) 8 with
  | .ok p =>
    .next (finish (byteCount p)
      (setGroup (decBlkByte (fun j => laneValue (Config.freeLane s.draws j) (symbolByte s.lat j)) p) s))
  | .error f => .next (raiseError f s)

/-- `Validate` as DECLEN asks it of its source (R130, R145): one read scans the symbols, and a second read of the final
block counts its pads and gives its last real symbol (20_memory R47). Where no byte is unwritten the two agree. Where
the second read finds no symbol there, that lane's value is free (log entry 11). -/
def declenVerdict (s : State) : Except Failure Nat :=
  validateReread (fun i => laneValue (Config.freeLane (s.draws + 1) i) (sourceByte s (s.draws + 1) i))
    (sourceByte s s.draws) (sourceByte s (s.draws + 1)) s.lat.srcLen.toNat

/-- DECLEN (R145): the source region is validated and its exact decoded length returned. -/
def execDeclen (s : State) : Host.Outcome State Fault Refusal :=
  match decodedLengthOf (declenVerdict s) s.lat.srcAddr.toNat s.lat.srcLen.toNat with
  | .ok len => .next (finish len (spendDraws s))
  | .error f => .next (raiseError f (spendDraws s))

/-- DECODE's checks in their order, over the source bytes `sym` of its validation pass (R150, 60_exceptions R164). -/
def decodeChecks (sym : Nat → Byte) (l : Latched) : Except Failure Nat :=
  match decodedLengthOf (validate sym l.srcLen.toNat) l.srcAddr.toNat l.srcLen.toNat with
  | .error f => .error f
  | .ok len =>
    if l.dstCap.toNat < len then .error { code := .bufferTooSmall, pos := 0 }
    else if Config.memSize < l.dstAddr.toNat + len then .error { code := .range, pos := 1 }
    else if regionsMeet l.srcAddr.toNat l.srcLen.toNat l.dstAddr.toNat len then .error { code := .overlap, pos := 0 }
    else .ok len

/-- `pk` of DECODE's data pass: the pads counted in the final block, none in any other (R150). -/
def blockPads (sym : Nat → Byte) (m k : Nat) : Nat := if k + 1 = m / 8 then padCount sym m else 0

/-- Byte `i` of DECODE's output (R150): byte `i mod 5` of block `i / 5`. `sym` is the source as the validation pass
read it, `again` as the data pass reads it. Where no byte is unwritten the two agree. Where the data pass finds a
byte that is no symbol, its lane's value is free; where it counts other pads in the final block than were
validated, the block's bytes are free, and the extent stays that of R156 (log entry 9). -/
def decodedByte (t : Nat) (sym again : Nat → Byte) (m i : Nat) : Byte :=
  if blockPads again m (i / 5) = blockPads sym m (i / 5) then
    decByte (fun j => laneValue (Config.freeLane t (8 * (i / 5) + j)) (again (8 * (i / 5) + j)))
      (blockPads again m (i / 5)) (i % 5)
  else Config.freeOut t i

/-- DECODE (R150, R155, R156): every check comes before the first write. The source is read twice, by reads of two
numbers (20_memory R47). -/
def execDecode (s : State) : Host.Outcome State Fault Refusal :=
  match decodeChecks (sourceByte s s.draws) s.lat with
  | .ok len =>
    .next (finish len
      { spendDraws s with
        mem := memWriteRange s.mem s.lat.dstAddr.toNat
          (decodedByte (s.draws + 1) (sourceByte s s.draws) (sourceByte s (s.draws + 1)) s.lat.srcLen.toNat) len })
  | .error f => .next (raiseError f (spendDraws s))

end Sys2Proof.Machine
end

