-- ==== Sys2Proof/Machine/Length.lean ====
section
/-! DEFINITION. The length command ENCLEN (41_length). -/

namespace Sys2Proof.Machine

/-- ENCLEN's command function (R100): `encoded_length(SRC_LEN)`, or `OVERFLOW` past `LEN_MAX`. -/
def encLenOutcome (l : Latched) : Except Failure Nat :=
  if Config.lenMax < encodedLength l.srcLen.toNat then .error { code := .overflow, pos := 0 }
  else .ok (encodedLength l.srcLen.toNat)

/-- ENCLEN (R100, R102): no memory is read or written. -/
def execEnclen (s : State) : Host.Outcome State Fault Refusal :=
  match encLenOutcome s.lat with
  | .ok v => .next (finish v s)
  | .error f => .next (raiseError f s)

end Sys2Proof.Machine
end

