-- ==== Sys2Proof/Machine/Dispatch.lean ====
section
/-! DEFINITION. One arm per command: its completion step over the latched values (10_state R32). -/

namespace Sys2Proof.Machine

def exec (i : Instr) (s : State) : Host.Outcome State Fault Refusal :=
  match i with
  | .enclen => Sys2Proof.Machine.execEnclen s
  | .encode => Sys2Proof.Machine.execEncode s
  | .decode => Sys2Proof.Machine.execDecode s
  | .declen => Sys2Proof.Machine.execDeclen s
  | .encblk1 => Sys2Proof.Machine.execEncblk1 s
  | .encblk2 => Sys2Proof.Machine.execEncblk2 s
  | .encblk3 => Sys2Proof.Machine.execEncblk3 s
  | .encblk4 => Sys2Proof.Machine.execEncblk4 s
  | .encblk5 => Sys2Proof.Machine.execEncblk5 s
  | .decblk => Sys2Proof.Machine.execDecblk s

end Sys2Proof.Machine
end

