-- ==== Sys2Proof/Machine/HostBus.lean ====
section
/-! DEFINITION. The host's steps (10_state R30): register accesses through the window at `REG_BASE`, loads and
stores of buffer memory with the buffer hazard, and a look at the interrupt line. -/

namespace Sys2Proof.Machine

/-- What a host access to its address map reaches. -/
inductive RegTarget where
  /-- No byte of it lies in the window: it does not reach the block (10_state R28). -/
  | outside
  /-- It touches the window and is not 32 bits wide (10_state R29). -/
  | wrongWidth
  /-- It touches the window, 32 bits wide, at an offset that is not a multiple of 4 (10_state R29). -/
  | unaligned
  /-- A register. -/
  | register (r : Reg)
  deriving DecidableEq, Repr

/-- The access of `bytes` bytes at host address `addr`, with the 64-byte window at `base` (10_state R12, R28, R29). -/
def regTarget (base addr bytes : Nat) : RegTarget :=
  if addr + bytes ≤ base ∨ base + 64 ≤ addr then .outside
  else if bytes ≠ 4 then .wrongWidth
  else if addr < base ∨ (addr - base) % 4 ≠ 0 then .unaligned
  else .register (regAtOffset (addr - base))

/-- The host observes that no command is in flight (70_reset R195, 20_memory R51): what was unobserved no
longer is. -/
def observeCompletion (s : State) : State := if s.busy then s else { s with unobserved := [] }

/-- A host register read of `r`: the value goes to the host, and a read of `STATUS` that returns `BUSY = 0` is the
host's observation of completion (20_memory R51). Nothing of the block changes (10_state R29). -/
def hostReadReg (r : Reg) (s : State) : State :=
  match r with
  | .status => observeCompletion { s with host := { s.host with word := regRead .status s } }
  | r => { s with host := { s.host with word := regRead r s } }

/-- HOST's register-read step (10_state R29). -/
def hostRegRead (addr bytes : Nat) (s : State) : Host.Outcome State Fault Refusal :=
  match regTarget Config.regBase addr bytes with
  | .outside => .next s
  | .wrongWidth => .refused .registerWidth
  | .unaligned => .refused .registerAlignment
  | .register r => .next (hostReadReg r s)

/-- HOST's register-write step (10_state R29). -/
def hostRegWrite (addr bytes : Nat) (v : Word) (s : State) : Host.Outcome State Fault Refusal :=
  match regTarget Config.regBase addr bytes with
  | .outside => .next s
  | .wrongWidth => .refused .registerWidth
  | .unaligned => .refused .registerAlignment
  | .register r => .next (regWrite r v s)

/-- HOST's load of a byte of buffer memory: the byte last written, or a draw (20_memory R51, 70_reset R191);
`HAZARD_BUFFER` in the destination range of a command not yet observed complete (70_reset R195). -/
def hostLoad (a : Addr) (s : State) : Host.Outcome State Fault Refusal :=
  if loadHazard s a.toNat then .fault .hazardBuffer
  else .next { spendDraws s with host := { s.host with byte := memRead s.mem s.draws a.toNat } }

/-- HOST's store of a byte of buffer memory; `HAZARD_BUFFER` in the source region or the destination range of a
command not yet observed complete (70_reset R195). -/
def hostStore (a : Addr) (v : Byte) (s : State) : Host.Outcome State Fault Refusal :=
  if storeHazard s a.toNat then .fault .hazardBuffer
  else .next { s with mem := memWrite s.mem a.toNat v }

/-- HOST looks at the interrupt line; a line that is asserted tells it the completion (20_memory R51,
60_exceptions R170). -/
def hostIrqSample (s : State) : State :=
  if irqLine s then observeCompletion { s with host := { s.host with irq := true } }
  else { s with host := { s.host with irq := false } }

end Sys2Proof.Machine
end

