-- ==== Sys2Proof/Machine/Reset.lean ====
section
/-! DEFINITION. Reset as a step of the environment (70_reset R190 to R193). -/

namespace Sys2Proof.Machine

/-- The length a command's checks computed, or 0 where a check would fail (70_reset R192). -/
def lengthOrNone (r : Except Failure Nat) : Nat :=
  match r with
  | .ok len => len
  | .error _ => 0

/-- How many destination bytes the command `i` in flight may have begun to write (70_reset R192). -/
def interruptedLength (i : Instr) (s : State) : Nat :=
  match i with
  | .enclen => 0
  | .encode => lengthOrNone (encodeChecks s.lat)
  | .decode => lengthOrNone (decodeChecks (sourceByte s s.draws) s.lat)
  | .declen => 0
  | .encblk1 => 0
  | .encblk2 => 0
  | .encblk3 => 0
  | .encblk4 => 0
  | .encblk5 => 0
  | .decblk => 0

/-- The destination bytes a reset leaves open: those of ENCODE or DECODE in flight, none otherwise (70_reset R192). -/
def resetLength (s : State) : Nat :=
  if s.busy then
    match decodeWord s.lat.cmd with
    | .ok i => interruptedLength i s
    | .error _ => 0
  else 0

/-- Reset (70_reset R190, R192): every register takes its value of 10_state R37, the command in flight is
discarded, each byte of the destination it may have begun to write becomes a draw, and no other byte of buffer
memory changes. What the agents do afterwards and what the host holds is not the block's to reset. -/
def resetBlock (s : State) : State :=
  { State.reset with
    mem := memWriteRange s.mem s.lat.dstAddr.toNat
      (fun i => Config.draw (s.draws + 1) (s.lat.dstAddr.toNat + i)) (resetLength s)
    sched := s.sched
    draws := s.draws + 2
    host := s.host }

end Sys2Proof.Machine
end

