-- ==== Sys2Proof/Machine/Events.lean ====
section
/-! DEFINITION. The steps of the two agents and of the environment (10_state R30), and how a command word is placed
where the next step runs it. -/

namespace Sys2Proof.Machine

/-- The completion step (10_state R32): the latched word selects the command function (30_encoding R63); an illegal
word ends with `ILLEGAL_COMMAND(0)` (30_encoding R64). -/
def complete (s : State) : Host.Outcome State Fault Refusal :=
  match decodeWord s.lat.cmd with
  | .ok i => exec i s
  | .error _ => .next (raiseError { code := .illegalCommand, pos := 0 } s)

/-- CODEC's turn: its completion step while `BUSY = 1`, its only enabled one (10_state R32); nothing while idle
(60_exceptions R176). -/
def codecTurn (s : State) : Host.Outcome State Fault Refusal := if s.busy then complete s else .next s

/-- One event of the interleaving. -/
def runEvent (e : Event) (s : State) : Host.Outcome State Fault Refusal :=
  match e with
  | .regRead addr bytes => hostRegRead addr bytes s
  | .regWrite addr bytes v => hostRegWrite addr bytes v s
  | .memRead a => hostLoad a s
  | .memWrite a v => hostStore a v s
  | .irqSample => .next (hostIrqSample s)
  | .codec => codecTurn s
  | .reset => .next (resetBlock s)

/-- The next event of the interleaving is run; when none is left CODEC has the turn, so that a command completes
after finitely many host steps (10_state R30, R32). -/
def runNext (s : State) : Host.Outcome State Fault Refusal :=
  match s.sched with
  | [] => codecTurn s
  | e :: rest => runEvent e { s with sched := rest }

/-- CODEC goes next: ahead of what is laid down, or by the empty interleaving. -/
def codecNext (l : List Event) : List Event :=
  match l with
  | [] => []
  | e :: rest => .codec :: e :: rest

/-- `s` with the command word `w` accepted (10_state R31) and CODEC next, so that the next step runs it. -/
def placeCommand (w : Word) (s : State) : State :=
  { acceptCommand w s with sched := codecNext s.sched }

end Sys2Proof.Machine
end

