-- ==== Sys2Proof/Machine/Step.lean ====
section
/-! DEFINITION. One step of the machine, and a command placed where the next step runs it. -/

namespace Sys2Proof.Machine

/-- One step of one agent or of the environment (10_state R30). -/
def step (s : State) : Host.Outcome State Fault Refusal := runNext s

/-- The block fetches no instructions (10_state R11): a command is a word the host writes to `CMD`. This is `s`
right after the acceptance of the table row's word, with CODEC's completion step next (log entry 2). -/
def State.withFetchWord (s : State) (nbits w : Nat) : State := placeCommand (tableWord nbits w) s

end Sys2Proof.Machine
end

