-- ==== Sys2Proof/Safety.lean ====
section
/-! DEFINITION. What claims about the block are stated in: the invariant of its states, valid symbol sequences, and
the bit stream that Base32 text carries. -/

namespace Sys2Proof.Safety

open Sys2Proof.Machine

/-- What holds in every state the block can reach. -/
structure Inv (s : State) : Prop where
  /-- Buffer memory keeps its canonical form, inside the address space (20_memory R40). -/
  memory : s.mem.wf
  /-- `DONE` and `ERR` are never both 1 (10_state R15). -/
  exclusive : ¬(s.done = true ∧ s.err = true)
  /-- While `BUSY = 1`, `DONE = 0` and `ERR = 0` (10_state R15). -/
  busyFlags : s.busy = true → s.done = false ∧ s.err = false
  /-- The completion registers are cleared from acceptance to completion (10_state R31). -/
  busyCleared : s.busy = true → s.result = 0 ∧ s.errCode = 0 ∧ s.errPos = 0
  /-- Codes 9 to 15 are never reported (60_exceptions R160). -/
  codeKnown : s.errCode.toNat ≤ 8
  /-- After success the code and the position are 0 (60_exceptions R161). -/
  doneNoCode : s.done = true → s.errCode = 0 ∧ s.errPos = 0
  /-- After an error the code is not 0 (60_exceptions R162). -/
  errHasCode : s.err = true → s.errCode ≠ 0
  /-- A code goes with `RESULT = 0` (60_exceptions R162, 10_state R21). -/
  codeNoResult : s.errCode ≠ 0 → s.result = 0
  /-- The regions of the command in flight are guarded against the host (70_reset R195). -/
  guarded : s.busy = true → s.lat ∈ s.unobserved

/-- CODEC has the turn: its event is next, or the interleaving is empty (10_state R30, R32). -/
def CodecNext (s : State) : Prop := s.sched = [] ∨ ∃ rest, s.sched = .codec :: rest

/-- `sym` is a valid encoding of `m` symbols with `p` pads (40_datapath R90): whole blocks, a valid pad count, the
pads exactly the last `p` positions, alphabet symbols before them, and zero unused bits in the last of these. -/
structure ValidSymbols (sym : Nat → Byte) (m p : Nat) : Prop where
  nonempty : 0 < m
  blocks : m % 8 = 0
  count : p = 0 ∨ p = 1 ∨ p = 3 ∨ p = 4 ∨ p = 6
  symbols : ∀ i, i < m - p → ∃ v, ralpha (sym i) = .sym v
  pads : ∀ i, m - p ≤ i → i < m → sym i = 0x3D
  canonical : ∀ v, ralpha (sym (m - p - 1)) = .sym v → v.toNat % 2 ^ unusedBits p = 0

/-- Bit `x` of the bit stream of the `n` bytes `src`: the most significant bit of byte 0 is bit 0, and past the last
byte the stream is zero (40_datapath R84, R87). -/
def byteStreamBit (src : Nat → Byte) (n x : Nat) : Bool := decide (x / 8 < n) && (src (x / 8)).getLsbD (7 - x % 8)

/-- Bit `x` of the bit stream that symbols carry, five bits each: the most significant bit of symbol 0 is bit 0
(40_datapath R84, R91). A byte that is no alphabet symbol carries zeros. -/
def symbolStreamBit (sym : Nat → Byte) (x : Nat) : Bool :=
  match ralpha (sym (x / 5)) with
  | .sym v => v.getLsbD (4 - x % 5)
  | .pad => false
  | .bad => false

/-- The source region of the command in flight holds the bytes `src`, every one of them written (20_memory R42). -/
def SourceHolds (s : State) (src : Nat → Byte) : Prop :=
  ∀ i, i < s.lat.srcLen.toNat → memFind s.mem (s.lat.srcAddr.toNat + i) = some (src i)

/-- `src` is what the command in flight may find in its source region: it has the byte last written wherever one was,
and any byte where none was (20_memory R51, 70_reset R191). -/
def SourceAgrees (s : State) (src : Nat → Byte) : Prop :=
  ∀ i b, i < s.lat.srcLen.toNat → memFind s.mem (s.lat.srcAddr.toNat + i) = some b → src i = b

/-- The regions of `lenSrc` bytes at `src` and `lenDst` bytes at `dst` have no byte in common (42_encode R120). -/
def Apart (src lenSrc dst lenDst : Nat) : Prop :=
  lenSrc = 0 ∨ lenDst = 0 ∨ dst + lenDst ≤ src ∨ src + lenSrc ≤ dst

/-- The latched operands on which ENCODE succeeds (42_encode R120): no overflow, both regions inside the address
space, room for the output, and the regions apart. -/
structure EncodeReady (l : Latched) : Prop where
  noOverflow : l.srcLen.toNat ≤ 0x9FFFFFFB
  sourceFits : l.srcAddr.toNat + l.srcLen.toNat ≤ 2 ^ 32
  room : encodedLength l.srcLen.toNat ≤ l.dstCap.toNat
  destFits : l.dstAddr.toNat + encodedLength l.srcLen.toNat ≤ 2 ^ 32
  apart : Apart l.srcAddr.toNat l.srcLen.toNat l.dstAddr.toNat (encodedLength l.srcLen.toNat)

/-- The latched operands on which DECODE of a valid source of decoded length `len` succeeds (43_decode R150). -/
structure DecodeReady (l : Latched) (len : Nat) : Prop where
  sourceFits : l.srcAddr.toNat + l.srcLen.toNat ≤ 2 ^ 32
  room : len ≤ l.dstCap.toNat
  destFits : l.dstAddr.toNat + len ≤ 2 ^ 32
  apart : Apart l.srcAddr.toNat l.srcLen.toNat l.dstAddr.toNat len

/-- An event that touches no byte of buffer memory from the host's side: a 32-bit access at a word offset of the
register window, a look at the interrupt line, CODEC's turn, or reset. -/
def RegisterOnly (e : Event) : Prop :=
  match e with
  | .regRead addr bytes => bytes = 4 ∧ ∃ off, off < 64 ∧ off % 4 = 0 ∧ addr = Config.regBase + off
  | .regWrite addr bytes _ => bytes = 4 ∧ ∃ off, off < 64 ∧ off % 4 = 0 ∧ addr = Config.regBase + off
  | .memRead _ => False
  | .memWrite _ _ => False
  | .irqSample => True
  | .codec => True
  | .reset => True

/-- No step of the run of `k` steps from `s` stops: every one answers a next state. -/
def RunsSafely (k : Nat) (s : State) : Prop := ∃ t, Host.Core.run Sys2Proof.core k s = .next t

end Sys2Proof.Safety
end

