-- ==== Sys2Proof/Certificates/Slice0/Obligations.lean ====
section
/-! DEFINITION. The statements about the block, each formalising the rules of spec/ its docstring names. -/

open Sys2Proof Sys2Proof.Machine Sys2Proof.Safety

/-! ### Encoding (30_encoding) -/

/-- The ten words of the opcode table decode to their commands, and words of 95_test_vectors V-X1 to V-X5 and V-B12,
V-B13 are refused, each by the check it fails (30_encoding R63, R64). -/
def Obligations.TableWordsDecode : Prop :=
  (decodeWord 0x00000001 = .ok .enclen ∧ decodeWord 0x00000002 = .ok .encode ∧ decodeWord 0x00000003 = .ok .decode ∧
    decodeWord 0x00000004 = .ok .declen ∧ decodeWord 0x00000015 = .ok .encblk1 ∧ decodeWord 0x00000025 = .ok .encblk2 ∧
    decodeWord 0x00000035 = .ok .encblk3 ∧ decodeWord 0x00000045 = .ok .encblk4 ∧ decodeWord 0x00000055 = .ok .encblk5 ∧
    decodeWord 0x00000006 = .ok .decblk) ∧
  (decodeWord 0x00000000 = .error .reservedOpcode ∧ decodeWord 0x00000007 = .error .reservedOpcode ∧
    decodeWord 0x0000000F = .error .reservedOpcode ∧ decodeWord 0x00000012 = .error .illegalCount ∧
    decodeWord 0x80000001 = .error .reservedBits ∧ decodeWord 0x00000005 = .error .illegalCount ∧
    decodeWord 0x00000065 = .error .illegalCount ∧ decodeWord 0x00000075 = .error .illegalCount)

/-- Decode and encode agree on all `2^32` words, the legal words are exactly the ten, and each is its command's
(30_encoding R63). -/
def Obligations.DecodeInvertsEncode : Prop :=
  (∀ (w : Word) (i : Instr), decodeWord w = .ok i ↔ w = encodeInstr i) ∧
  (∀ w : Word, (∃ i, decodeWord w = .ok i) ↔
    w ∈ [0x00000001#32, 0x00000002#32, 0x00000003#32, 0x00000004#32, 0x00000015#32, 0x00000025#32, 0x00000035#32,
      0x00000045#32, 0x00000055#32, 0x00000006#32]) ∧
  ([Instr.enclen, .encode, .decode, .declen, .encblk1, .encblk2, .encblk3, .encblk4, .encblk5, .decblk].map encodeInstr =
    [0x00000001, 0x00000002, 0x00000003, 0x00000004, 0x00000015, 0x00000025, 0x00000035, 0x00000045, 0x00000055,
      0x00000006])

/-- A word is illegal exactly when a field of it is: reserved bits set, an unassigned opcode, a count with an opcode
that takes none, or a count of ENCBLK outside `1..5` (30_encoding R64). -/
def Obligations.IllegalWordsByField : Prop :=
  ∀ w : Word, (∃ e, decodeWord w = .error e) ↔
    (w.toNat / 2 ^ 7 ≠ 0 ∨ w.toNat % 16 = 0 ∨ 7 ≤ w.toNat % 16 ∨
      (w.toNat % 16 ≠ 5 ∧ w.toNat / 16 % 8 ≠ 0) ∨
      (w.toNat % 16 = 5 ∧ (w.toNat / 16 % 8 = 0 ∨ w.toNat / 16 % 8 = 6 ∨ w.toNat / 16 % 8 = 7)))

/-! ### Datapaths (40_datapath) -/

/-- The two look-up tables are inverse on the alphabet (40_datapath R83). -/
def Obligations.AlphabetInverse : Prop :=
  (∀ v : Lane, ralpha (alpha v) = .sym v) ∧ (∀ v w : Lane, alpha v = alpha w → v = w) ∧ ralpha padByte = .pad

/-- The alphabet symbols are exactly `'A'..'Z'` and `'2'..'7'`, each with its value; lower case is refused
(40_datapath R80, R82, 43_decode R153). -/
def Obligations.AlphabetExact : Prop :=
  ∀ c : Byte,
    (0x41 ≤ c.toNat → c.toNat ≤ 0x5A → ∃ v, ralpha c = .sym v ∧ v.toNat = c.toNat - 0x41 ∧ alpha v = c) ∧
    (0x32 ≤ c.toNat → c.toNat ≤ 0x37 → ∃ v, ralpha c = .sym v ∧ v.toNat = c.toNat - 0x32 + 26 ∧ alpha v = c) ∧
    (c = 0x3D → ralpha c = .pad) ∧
    (¬(0x41 ≤ c.toNat ∧ c.toNat ≤ 0x5A) → ¬(0x32 ≤ c.toNat ∧ c.toNat ≤ 0x37) → c ≠ 0x3D → ralpha c = .bad)

/-- The tables of real symbols, pads, bytes and unused bits (40_datapath R85, R86). -/
def Obligations.PaddingTables : Prop :=
  ([1, 2, 3, 4, 5].map (fun r => (realSymbols r, padsFor r, 8 * r, 5 * realSymbols r, 5 * realSymbols r - 8 * r)) =
    [(2, 6, 8, 10, 2), (4, 4, 16, 20, 4), (5, 3, 24, 25, 1), (7, 1, 32, 35, 3), (8, 0, 40, 40, 0)]) ∧
  ([0, 1, 3, 4, 6].map (fun p => (byteCount p, unusedBits p)) = [(5, 0), (4, 3), (3, 1), (2, 4), (1, 2)]) ∧
  ((List.range 9).filter padCountValid = [0, 1, 3, 4, 6]) ∧
  (∀ r ∈ [1, 2, 3, 4, 5], byteCount (padsFor r) = r)

/-- `encoded_length(n)` is 8 times the least number of groups of 5 that hold `n` bytes, and 0 for none
(40_datapath R88). -/
def Obligations.EncodedLengthLeast : Prop :=
  encodedLength 0 = 0 ∧
  ∀ n : Nat, ∃ q, encodedLength n = q * 8 ∧ n ≤ q * 5 ∧ ∀ q', n ≤ q' * 5 → q ≤ q'

/-- The encoder carries the bit stream of its input (40_datapath R84, R87, R89): of the `encoded_length(n)` symbols of
`n` bytes, symbol `i` is a pad when its five bits all lie past the input, and otherwise the alphabet symbol of bits
`5i..5i+4` of the stream, most significant first, zeros past the last byte. -/
def Obligations.EncoderCarriesBitStream : Prop :=
  ∀ (src : Nat → Byte) (n i : Nat), i < encodedLength n →
    (8 * n ≤ 5 * i → encodedByte src n i = 0x3D) ∧
    (5 * i < 8 * n → ∃ v, ralpha (encodedByte src n i) = .sym v ∧ encodedByte src n i = alpha v ∧
      ∀ b, b < 5 → v.getLsbD (4 - b) = byteStreamBit src n (5 * i + b))

/-- The pads of an encoding are its last `0, 6, 4, 3, 1` symbols as `n mod 5` is `0, 1, 2, 3, 4` (40_datapath R89). -/
def Obligations.PadScheduleByRemainder : Prop :=
  ∀ (src : Nat → Byte) (n i : Nat), 0 < n → i < encodedLength n →
    (encodedByte src n i = padByte ↔ encodedLength n ≤ i + [0, 6, 4, 3, 1].getD (n % 5) 0)

/-- The scan of `Validate` accepts exactly the valid symbol sequences and returns their pad count
(40_datapath R90). -/
def Obligations.ValidateAcceptsExactlyValid : Prop :=
  ∀ (sym : Nat → Byte) (m p : Nat), 0 < m → m % 8 = 0 → (validate sym m = .ok p ↔ ValidSymbols sym m p)

/-- `Validate` stops at the first bad position of its scan: a byte of neither class, a pad before the final block, or
a symbol after a pad (40_datapath R90, 60_exceptions R164). Each error of the scan is reported with that position. -/
def Obligations.ValidateReportsFirstError : Prop :=
  ∀ (sym : Nat → Byte) (m i : Nat), 0 < m → m % 8 = 0 → i < m →
    (∀ j, j < i → ralpha (sym j) ≠ .bad ∧ (ralpha (sym j) = .pad → m - 8 ≤ j) ∧
      (∀ k, k < j → ralpha (sym k) = .pad → ralpha (sym j) = .pad)) →
    (ralpha (sym i) = .bad → validate sym m = .error { code := .invalidCharacter, pos := i }) ∧
    (ralpha (sym i) = .pad → i < m - 8 → validate sym m = .error { code := .invalidPadding, pos := i }) ∧
    (∀ v k, ralpha (sym i) = .sym v → k < i → ralpha (sym k) = .pad →
      validate sym m = .error { code := .invalidPadding, pos := i })

/-- After a scan without error a wrong pad count is reported at the first pad, and then non-zero unused bits at the
last real symbol (40_datapath R90, 43_decode R154). -/
def Obligations.ValidateCountThenCanonical : Prop :=
  ∀ (sym : Nat → Byte) (m p : Nat), 0 < m → m % 8 = 0 → p ≤ 8 →
    (∀ i, i < m - p → ∃ v, ralpha (sym i) = .sym v) → (∀ i, m - p ≤ i → i < m → sym i = padByte) →
    (p ∈ [2, 5, 7, 8] → validate sym m = .error { code := .invalidPadding, pos := m - p }) ∧
    (∀ v, p ∈ [1, 3, 4, 6] → ralpha (sym (m - p - 1)) = .sym v → v.toNat % 2 ^ unusedBits p ≠ 0 →
      validate sym m = .error { code := .invalidCharacter, pos := m - p - 1 })

/-- Every encoding validates, with the pads of its last group (40_datapath R93, first law, for a whole buffer). -/
def Obligations.EncodingValidates : Prop :=
  ∀ (src : Nat → Byte) (n : Nat), 0 < n →
    validate (encodedByte src n) (encodedLength n) = .ok (padsFor (n - 5 * (divUp n 5 - 1)))

/-- The one-block pipelines are inverse: a group of `r` bytes comes back from its block (40_datapath R93, law 1). -/
def Obligations.DecodeBlockInvertsEncodeBlock : Prop :=
  ∀ (g : Nat → Byte) (r : Nat) (free : Nat → Lane), 1 ≤ r → r ≤ 5 →
    validate (encSymbol g r) 8 = .ok (padsFor r) ∧
    ∀ k, k < r → decByte (fun j => laneValue (free j) (encSymbol g r j)) (padsFor r) k = g k

/-- A valid block is the encoding of the bytes it decodes to (40_datapath R93, law 2): decoding is injective. -/
def Obligations.EncodeBlockInvertsDecodeBlock : Prop :=
  ∀ (c : Nat → Byte) (p : Nat) (free : Nat → Lane), validate c 8 = .ok p →
    ∀ j, j < 8 → encSymbol (decBlkByte (fun j => laneValue (free j) (c j)) p) (byteCount p) j = c j

/-! ### The commands: what each computes, and that it completes -/

/-- ENCLEN (41_length R100): the word, the result, the overflow, and nothing else changed. -/
def Obligations.EnclenCommand : Prop :=
  decodeWord 0x00000001 = .ok .enclen ∧
  ∀ s : State,
    (encodedLength s.lat.srcLen.toNat ≤ 2 ^ 32 - 1 →
      exec .enclen s = .next { s with
        result := BitVec.ofNat 32 (encodedLength s.lat.srcLen.toNat), errCode := 0, errPos := 0
        done := true, err := false, busy := false }) ∧
    (2 ^ 32 - 1 < encodedLength s.lat.srcLen.toNat →
      exec .enclen s = .next { s with
        result := 0, errCode := 5, errPos := 0, done := false, err := true, busy := false })

/-- ENCLEN is deterministic: its outcome depends on `SRC_LEN` alone, and only the completion registers change
(41_length R102). -/
def Obligations.EnclenDependsOnLengthOnly : Prop :=
  (∀ s t : State, exec .enclen s = .next t →
    t = { s with busy := t.busy, done := t.done, err := t.err, result := t.result, errCode := t.errCode
                 errPos := t.errPos }) ∧
  (∀ s s' t t' : State, s.lat.srcLen = s'.lat.srcLen → exec .enclen s = .next t → exec .enclen s' = .next t' →
    t.result = t'.result ∧ t.errCode = t'.errCode ∧ t.errPos = t'.errPos ∧ t.done = t'.done ∧ t.err = t'.err)

/-- ENCLEN and ENCODE raise `OVERFLOW` exactly when `SRC_LEN` is `0x9FFFFFFC` or more (41_length R101). -/
def Obligations.OverflowThreshold : Prop :=
  (∀ n : Nat, (encodedLength n ≤ 2 ^ 32 - 1 ↔ divUp n 5 ≤ 536870911) ∧
    (encodedLength n ≤ 2 ^ 32 - 1 ↔ n ≤ 0x9FFFFFFB)) ∧
  ∀ s : State, ∀ i ∈ [Instr.enclen, Instr.encode],
    (∃ t, exec i s = .next t ∧ t.err = true ∧ t.errCode = 5) ↔ 0x9FFFFFFC ≤ s.lat.srcLen.toNat

/-- `ENCBLK r` for `r = 1..5` (42_encode R110): the word, `SYM_LO` and `SYM_HI` from the latched group, byte `r` and
later ignored, `RESULT = 8`, no failure, and nothing else changed; the other counts are illegal words. -/
def Obligations.EncblkCommand : Prop :=
  (∀ r ∈ [0, 6, 7], decodeWord (BitVec.ofNat 32 (5 + 16 * r)) = .error .illegalCount) ∧
  ∀ p ∈ [(1, Instr.encblk1), (2, Instr.encblk2), (3, Instr.encblk3), (4, Instr.encblk4), (5, Instr.encblk5)],
    decodeWord (BitVec.ofNat 32 (5 + 16 * p.1)) = .ok p.2 ∧
    ∀ s : State, ∃ lo hi : Word,
      exec p.2 s = .next { s with
        symLo := lo, symHi := hi, result := 8, errCode := 0, errPos := 0
        done := true, err := false, busy := false } ∧
      ∀ j, j < 8 →
        (8 * p.1 ≤ 5 * j → (hi ++ lo : BitVec 64).extractLsb' (8 * j) 8 = 0x3D) ∧
        (5 * j < 8 * p.1 → ∃ v, (hi ++ lo : BitVec 64).extractLsb' (8 * j) 8 = alpha v ∧
          ∀ b, b < 5 → v.getLsbD (4 - b) =
            byteStreamBit (fun k => s.lat.grp.extractLsb' (8 * k) 8) p.1 (5 * j + b))

/-- ENCODE's checks in their order (42_encode R120, 60_exceptions R164), each with its error and nothing written. -/
def Obligations.EncodeErrorsInOrder : Prop :=
  ∀ s : State,
    let src := s.lat.srcAddr.toNat
    let n := s.lat.srcLen.toNat
    let dst := s.lat.dstAddr.toNat
    let len := encodedLength n
    let fails (code : BitVec 4) (pos : Word) := ∃ draws, exec .encode s = .next { s with
      result := 0, errCode := code, errPos := pos, done := false, err := true, busy := false, draws := draws }
    if 2 ^ 32 - 1 < len then fails 5 0
    else if 2 ^ 32 < src + n then fails 7 0
    else if s.lat.dstCap.toNat < len then fails 1 0
    else if 2 ^ 32 < dst + len then fails 7 1
    else if 0 < n ∧ src < dst + len ∧ dst < src + n then fails 8 0
    else ∃ t, exec .encode s = .next t ∧ t.done = true ∧ t.err = false

/-- A successful ENCODE (42_encode R120, R121): where every check passes it completes with `RESULT` the encoded
length, writes exactly that many bytes from `DST_ADDR` on, the encoding of its source, whose pads are the last `P(r)` symbols
for a last group of `r` bytes, and changes no other byte and no other register. -/
def Obligations.EncodeSucceeds : Prop :=
  ∀ s : State, EncodeReady s.lat →
    ∃ (src : Nat → Byte) (mem : Memory) (draws : Nat), SourceAgrees s src ∧
      exec .encode s = .next { s with
        result := BitVec.ofNat 32 (encodedLength s.lat.srcLen.toNat), errCode := 0, errPos := 0
        done := true, err := false, busy := false, mem := mem, draws := draws } ∧
      (∀ i, i < encodedLength s.lat.srcLen.toNat →
        memFind mem (s.lat.dstAddr.toNat + i) = some (encodedByte src s.lat.srcLen.toNat i) ∧
        (memFind mem (s.lat.dstAddr.toNat + i) = some 0x3D ↔
          encodedLength s.lat.srcLen.toNat ≤
            i + padsFor (s.lat.srcLen.toNat - 5 * (divUp s.lat.srcLen.toNat 5 - 1)))) ∧
      (∀ a, a < s.lat.dstAddr.toNat ∨ s.lat.dstAddr.toNat + encodedLength s.lat.srcLen.toNat ≤ a →
        memFind mem a = memFind s.mem a)

/-- No partial output: an ENCODE, DECODE or DECBLK that ends with an error leaves the buffer memory and the block
registers as they were, and `RESULT = 0` (42_encode R122, 43_decode R155). -/
def Obligations.NoPartialOutput : Prop :=
  ∀ (s t : State), ∀ i ∈ [Instr.encode, Instr.decode, Instr.decblk], exec i s = .next t → t.err = true →
    t.mem = s.mem ∧ t.grpLo = s.grpLo ∧ t.grpHi = s.grpHi ∧ t.symLo = s.symLo ∧ t.symHi = s.symHi ∧ t.result = 0

/-- DECBLK of a valid block (43_decode R140): the word, `B(p)` bytes of the block's bit stream in `GRP_LO` and `GRP_HI`,
zeros in the unused lanes, `RESULT = B(p)`, and nothing else changed. -/
def Obligations.DecblkSucceeds : Prop :=
  decodeWord 0x00000006 = .ok .decblk ∧
  ∀ (s : State) (p : Nat), ValidSymbols (fun j => s.lat.sym.extractLsb' (8 * j) 8) 8 p →
    ∃ (lo : Word) (hi : Byte),
      exec .decblk s = .next { s with
        grpLo := lo, grpHi := hi, result := BitVec.ofNat 32 (byteCount p), errCode := 0, errPos := 0
        done := true, err := false, busy := false } ∧
      ∀ k, k < 5 →
        (byteCount p ≤ k → (hi ++ lo : BitVec 40).extractLsb' (8 * k) 8 = 0) ∧
        (k < byteCount p → ∀ b, b < 8 → ((hi ++ lo : BitVec 40).extractLsb' (8 * k) 8).getLsbD (7 - b) =
          symbolStreamBit (fun j => s.lat.sym.extractLsb' (8 * j) 8) (8 * k + b))

/-- DECBLK of an invalid block ends with the error of `Validate`, the symbol's index as its position, and nothing
written (43_decode R140, 60_exceptions R163). -/
def Obligations.DecblkFails : Prop :=
  ∀ (s : State) (f : Failure), validate (fun j => s.lat.sym.extractLsb' (8 * j) 8) 8 = .error f →
    f.pos < 8 ∧ (f.code = .invalidCharacter ∨ f.code = .invalidPadding) ∧
    exec .decblk s = .next { s with
      result := 0, errCode := if f.code = .invalidCharacter then 4 else 3, errPos := BitVec.ofNat 32 f.pos
      done := false, err := true, busy := false }

/-- DECLEN of a source inside the address space whose final block is written (43_decode R130, R145): for the bytes it
finds, the exact decoded length of a valid source, which is at most `5m/8`, or the error `Validate` reports, its
position inside the source; nothing is written. Elsewhere in the source bytes may never have been written. Where the
final block has such bytes, DECLEN's second read of it may differ (20_memory R47, log entry 11), and
DeclenRereadsFinalBlock says what it does. No symbols, and a length that is no multiple of 8, are in DecodeEmptySource
and DecodeLengthThenRange. -/
def Obligations.DeclenOfSource : Prop :=
  ∀ s : State, 0 < s.lat.srcLen.toNat → s.lat.srcLen.toNat % 8 = 0 →
    s.lat.srcAddr.toNat + s.lat.srcLen.toNat ≤ 2 ^ 32 →
    (∀ i, s.lat.srcLen.toNat - 8 ≤ i → i < s.lat.srcLen.toNat →
      ∃ b, memFind s.mem (s.lat.srcAddr.toNat + i) = some b) →
    ∃ sym : Nat → Byte, SourceAgrees s sym ∧
      (∀ p, ValidSymbols sym s.lat.srcLen.toNat p →
        (s.lat.srcLen.toNat / 8 - 1) * 5 + byteCount p ≤ 5 * s.lat.srcLen.toNat / 8 ∧
        ∃ draws, exec .declen s = .next { s with
          result := BitVec.ofNat 32 ((s.lat.srcLen.toNat / 8 - 1) * 5 + byteCount p), errCode := 0, errPos := 0
          done := true, err := false, busy := false, draws := draws }) ∧
      (∀ f, validate sym s.lat.srcLen.toNat = .error f → f.pos < s.lat.srcLen.toNat ∧
        ∃ draws, exec .declen s = .next { s with
          result := 0, errCode := if f.code = .invalidCharacter then 4 else 3, errPos := BitVec.ofNat 32 f.pos
          done := false, err := true, busy := false, draws := draws })

/-- DECLEN of any source inside the address space, also one with bytes never written (43_decode R130, R145,
20_memory R47): it scans the symbols `sym` as a first read finds them and reports the scan's error; after a scan
without error it counts the pads of the final block as a second read `again` finds it, reports a wrong count at its
first pad, and completes with the length of the count, or with an error for the unused bits of the last real symbol.
The two reads agree with what was written. Where the second finds a symbol in that place its unused bits decide; where
it finds none, which only bytes never written can bring about, either outcome may come (log entry 11). -/
def Obligations.DeclenRereadsFinalBlock : Prop :=
  ∀ s : State, 0 < s.lat.srcLen.toNat → s.lat.srcLen.toNat % 8 = 0 →
    s.lat.srcAddr.toNat + s.lat.srcLen.toNat ≤ 2 ^ 32 →
    let m := s.lat.srcLen.toNat
    let fails (code : BitVec 4) (pos : Nat) := ∃ draws, exec .declen s = .next { s with
      result := 0, errCode := code, errPos := BitVec.ofNat 32 pos
      done := false, err := true, busy := false, draws := draws }
    let succeeds (len : Nat) := ∃ draws, exec .declen s = .next { s with
      result := BitVec.ofNat 32 len, errCode := 0, errPos := 0
      done := true, err := false, busy := false, draws := draws }
    ∃ sym again : Nat → Byte, SourceAgrees s sym ∧ SourceAgrees s again ∧
      (∀ f, scanSymbols sym m m 0 false = some f →
        f.pos < m ∧ fails (if f.code = .invalidCharacter then 4 else 3) f.pos) ∧
      (scanSymbols sym m m 0 false = none →
        let p := padCount again m
        (p ∈ [2, 5, 7, 8] → fails 3 (m - p)) ∧
        (p ∈ [0, 1, 3, 4, 6] →
          (succeeds ((m / 8 - 1) * 5 + byteCount p) ∨ fails 4 (m - p - 1)) ∧
          ∀ v, ralpha (again (m - p - 1)) = .sym v →
            if v.toNat % 2 ^ unusedBits p = 0 then succeeds ((m / 8 - 1) * 5 + byteCount p) else fails 4 (m - p - 1)))

/-- DECODE and DECLEN of no symbols complete with `RESULT = 0` wherever the regions stand, and change no byte
(43_decode R130, R145, R150). -/
def Obligations.DecodeEmptySource : Prop :=
  ∀ s : State, s.lat.srcLen = 0 → ∀ i ∈ [Instr.decode, Instr.declen],
    ∃ draws, exec i s = .next { s with
      result := 0, errCode := 0, errPos := 0, done := true, err := false, busy := false, draws := draws }

/-- DECODE and DECLEN first check the source length, then the source range, whatever the bytes and the destination
(43_decode R130, R145, R150, 60_exceptions R164). -/
def Obligations.DecodeLengthThenRange : Prop :=
  ∀ s : State, ∀ i ∈ [Instr.decode, Instr.declen],
    let fails (code : BitVec 4) := ∃ draws, exec i s = .next { s with
      result := 0, errCode := code, errPos := 0, done := false, err := true, busy := false, draws := draws }
    (s.lat.srcLen.toNat % 8 ≠ 0 → fails 2) ∧
    (s.lat.srcLen.toNat % 8 = 0 → 2 ^ 32 < s.lat.srcAddr.toNat + s.lat.srcLen.toNat → fails 7)

/-- DECODE then reports, for the bytes it finds in its source, the first error of `Validate`, and for a valid source
the capacity, the destination range and the overlap, in that order (43_decode R150, 60_exceptions R164). That one
reading of bytes never written serves the whole validation is the model's deduction (log entry 20). -/
def Obligations.DecodeErrorsInOrder : Prop :=
  ∀ s : State, 0 < s.lat.srcLen.toNat → s.lat.srcLen.toNat % 8 = 0 →
    s.lat.srcAddr.toNat + s.lat.srcLen.toNat ≤ 2 ^ 32 →
    let src := s.lat.srcAddr.toNat
    let m := s.lat.srcLen.toNat
    let dst := s.lat.dstAddr.toNat
    let fails (code : BitVec 4) (pos : Word) := ∃ draws, exec .decode s = .next { s with
      result := 0, errCode := code, errPos := pos, done := false, err := true, busy := false, draws := draws }
    ∃ sym : Nat → Byte, SourceAgrees s sym ∧
      (∀ f, validate sym m = .error f → f.pos < m ∧
        fails (if f.code = .invalidCharacter then 4 else 3) (BitVec.ofNat 32 f.pos)) ∧
      (∀ p, ValidSymbols sym m p →
        let len := (m / 8 - 1) * 5 + byteCount p
        if s.lat.dstCap.toNat < len then fails 1 0
        else if 2 ^ 32 < dst + len then fails 7 1
        else if src < dst + len ∧ dst < src + m then fails 8 0
        else ∃ t, exec .decode s = .next t ∧ t.done = true ∧ t.err = false)

/-- A successful DECODE (43_decode R150, R156): where every check passes it completes with `RESULT` the exact decoded
length, writes exactly that many bytes from `DST_ADDR` on, the bit stream of its symbols, and changes no other byte
and no other register. -/
def Obligations.DecodeSucceeds : Prop :=
  ∀ (s : State) (sym : Nat → Byte) (p : Nat), SourceHolds s sym → ValidSymbols sym s.lat.srcLen.toNat p →
    let len := (s.lat.srcLen.toNat / 8 - 1) * 5 + byteCount p
    DecodeReady s.lat len →
    ∃ mem draws, exec .decode s = .next { s with
        result := BitVec.ofNat 32 len, errCode := 0, errPos := 0
        done := true, err := false, busy := false, mem := mem, draws := draws } ∧
      (∀ i, i < len → ∃ v, memFind mem (s.lat.dstAddr.toNat + i) = some v ∧
        ∀ b, b < 8 → v.getLsbD (7 - b) = symbolStreamBit sym (8 * i + b)) ∧
      (∀ a, a < s.lat.dstAddr.toNat ∨ s.lat.dstAddr.toNat + len ≤ a → memFind mem a = memFind s.mem a)

/-- The extent of a DECODE that succeeds, also where source bytes were never written: `RESULT` is the exact decoded
length of the valid symbols its validation found, it writes that many bytes from `DST_ADDR` on, and no other. For a
written source this is 43_decode R156. For bytes that were never written it is the model's own choice (log entry 9,
DESIGN CHOICE): the data pass of R150 counts the pads again and may count otherwise, and the model keeps R156's length.
That its validation is of one reading of such bytes is a deduction (log entry 20). -/
def Obligations.DecodeExtent : Prop :=
  ∀ s t : State, exec .decode s = .next t → t.done = true →
    (s.lat.srcLen = 0 → t.result = 0) ∧
    (s.lat.srcLen ≠ 0 → ∃ (sym : Nat → Byte) (p : Nat), SourceAgrees s sym ∧ ValidSymbols sym s.lat.srcLen.toNat p ∧
      t.result.toNat = (s.lat.srcLen.toNat / 8 - 1) * 5 + byteCount p) ∧
    t.result.toNat ≤ s.lat.dstCap.toNat ∧ s.lat.dstAddr.toNat + t.result.toNat ≤ 2 ^ 32 ∧
    (∀ i, i < t.result.toNat → ∃ v, memFind t.mem (s.lat.dstAddr.toNat + i) = some v) ∧
    (∀ a, a < s.lat.dstAddr.toNat ∨ s.lat.dstAddr.toNat + t.result.toNat ≤ a → memFind t.mem a = memFind s.mem a)

/-- The round trip (40_datapath R93, third law): where ENCODE succeeds, and DECODE of what it wrote has room for the
source's length, apart from its own source and inside the address space, DECODE succeeds and gives back the source
byte by byte. -/
def Obligations.DecodeInvertsEncodeCommand : Prop :=
  ∀ s t : State, exec .encode s = .next t → t.done = true →
    ∃ src : Nat → Byte, SourceAgrees s src ∧
      ∀ u : State, u.mem = t.mem → u.lat.srcAddr = s.lat.dstAddr → u.lat.srcLen = t.result →
        s.lat.srcLen.toNat ≤ u.lat.dstCap.toNat →
        u.lat.dstAddr.toNat + s.lat.srcLen.toNat ≤ 2 ^ 32 →
        Apart u.lat.srcAddr.toNat t.result.toNat u.lat.dstAddr.toNat s.lat.srcLen.toNat →
        ∃ v, exec .decode u = .next v ∧ v.done = true ∧ v.err = false ∧ v.result = s.lat.srcLen ∧
          ∀ i, i < s.lat.srcLen.toNat → memFind v.mem (u.lat.dstAddr.toNat + i) = some (src i)

/-! ### Every command -/

/-- The block never hangs and no access of its own fails: every command, from every state, ends in a next state, not
busy, with exactly one of `DONE` and `ERR` (10_state R32, 20_memory R48, 60_exceptions R161, R162). -/
def Obligations.EveryCommandCompletes : Prop :=
  ∀ (i : Instr) (s : State), ∃ t, exec i s = .next t ∧ t.busy = false ∧ (t.done = true ↔ t.err = false)

/-- Errors are precise (60_exceptions R162): a command that ends with an error changes nothing but `STATUS`, `RESULT`,
`ERRCODE` and `ERRPOS` (and the count of draws, the model's own). -/
def Obligations.ErrorsArePrecise : Prop :=
  ∀ (i : Instr) (s t : State), exec i s = .next t → t.err = true →
    t.errCode ≠ 0 ∧ t.errCode.toNat ≤ 8 ∧
    t = { s with busy := false, done := false, err := true, result := 0, errCode := t.errCode, errPos := t.errPos
                 draws := t.draws }

/-- What no command changes: `CTRL`, `OVR`, the operand registers, and the latched values; memory is changed by ENCODE
and DECODE only, inside the latched destination capacity, `SYM` by ENCBLK only, `GRP` by DECBLK only
(10_state R14, R17 to R20, R24 to R27, R36, 30_encoding R62). -/
def Obligations.CommandFrame : Prop :=
  ∀ (i : Instr) (s t : State), exec i s = .next t →
    t.irqEn = s.irqEn ∧ t.ovr = s.ovr ∧ t.srcAddr = s.srcAddr ∧ t.srcLen = s.srcLen ∧ t.dstAddr = s.dstAddr ∧
    t.dstCap = s.dstCap ∧ t.lat = s.lat ∧ t.sched = s.sched ∧ t.unobserved = s.unobserved ∧ t.host = s.host ∧
    (i ≠ .decblk → t.grpLo = s.grpLo ∧ t.grpHi = s.grpHi) ∧
    (i ∉ [.encblk1, .encblk2, .encblk3, .encblk4, .encblk5] → t.symLo = s.symLo ∧ t.symHi = s.symHi) ∧
    (i ∉ [.encode, .decode] → t.mem = s.mem) ∧
    (∀ a, a < s.lat.dstAddr.toNat ∨ s.lat.dstAddr.toNat + s.lat.dstCap.toNat ≤ a → memFind t.mem a = memFind s.mem a)

/-- A command runs on its latched values and the buffer memory: two states that agree on these (and on the draws, the
model's own) give the same outcome in `STATUS`, `RESULT`, `ERRCODE`, `ERRPOS` and memory, whatever the registers hold
(10_state R31, R35, 70_reset R198). -/
def Obligations.CommandSeesLatchedOnly : Prop :=
  ∀ (i : Instr) (s s' t t' : State), s.lat = s'.lat → s.mem = s'.mem → s.draws = s'.draws →
    exec i s = .next t → exec i s' = .next t' →
    t.done = t'.done ∧ t.err = t'.err ∧ t.result = t'.result ∧ t.errCode = t'.errCode ∧ t.errPos = t'.errPos ∧
    t.mem = t'.mem

/-! ### Steps: lifecycle, registers, interrupt, hazards, reset -/

/-- A step runs the decoded command: with a command in flight whose word decodes, and CODEC next, the step is that
command's meaning, CODEC's event spent (10_state R32, 30_encoding R63). The interleaving as a list, whose empty end
gives CODEC the turn, is the model's own form (log entries 1 and 2). -/
def Obligations.StepRunsDecoded : Prop :=
  ∀ (s : State) (i : Instr), s.busy = true → CodecNext s → decodeWord s.lat.cmd = .ok i →
    step s = exec i { s with sched := s.sched.tail }

/-- An illegal word completes with `ILLEGAL_COMMAND(0)`, no memory access, and no register written but the completion
registers (30_encoding R64). -/
def Obligations.IllegalCommandCompletes : Prop :=
  ∀ (s : State) (e : DecodeError), s.busy = true → CodecNext s → decodeWord s.lat.cmd = .error e →
    step s = .next { s with
      sched := s.sched.tail, result := 0, errCode := 6, errPos := 0, done := false, err := true, busy := false }

/-- CODEC's turn without a command in flight changes nothing (10_state R32, 60_exceptions R176); that the model lets an
idle CODEC have a turn at all is its own form (log entry 2). -/
def Obligations.IdleCodecTurn : Prop :=
  ∀ s : State, s.busy = false → CodecNext s → step s = .next { s with sched := s.sched.tail }

/-- Acceptance (10_state R31): a write of any word to `CMD` while idle latches the operands, sets `BUSY`, clears `DONE`,
`ERR` and the completion registers, leaves `OVR`, and changes nothing else of the block. The new command joins those
whose completion the host has not observed (the model's own record for 70_reset R195, log entry 6). -/
def Obligations.CmdWriteAccepted : Prop :=
  ∀ (s : State) (w : Word) (rest : List Event),
    s.sched = .regWrite (Config.regBase + 0x0C) 4 w :: rest → s.busy = false →
    ∃ (l : Latched) (unobserved : List Latched), step s = .next { s with
        sched := rest, lat := l, busy := true, done := false, err := false
        result := 0, errCode := 0, errPos := 0, unobserved := unobserved } ∧
      l ∈ unobserved ∧ s.unobserved ⊆ unobserved ∧
      l.cmd = w ∧ l.srcAddr = s.srcAddr ∧ l.srcLen = s.srcLen ∧ l.dstAddr = s.dstAddr ∧ l.dstCap = s.dstCap ∧
      l.grp = s.grpHi ++ s.grpLo ∧ l.sym = s.symHi ++ s.symLo

/-- A write to `CMD` while busy is dropped: `OVR` is set and nothing else changes (10_state R33). -/
def Obligations.CmdWriteDroppedWhileBusy : Prop :=
  ∀ (s : State) (w : Word) (rest : List Event),
    s.sched = .regWrite (Config.regBase + 0x0C) 4 w :: rest → s.busy = true →
    step s = .next { s with sched := rest, ovr := true }

/-- What a host read of each register returns, with no side effect on the block; `STATUS` and `CTRL` bit by bit
(10_state R12 to R29). -/
def Obligations.RegisterReadMap : Prop :=
  ∀ (s : State) (off : Nat) (rest : List Event), off < 64 → off % 4 = 0 →
    s.sched = .regRead (Config.regBase + off) 4 :: rest →
    ∃ (w : Word) (unobserved : List Latched),
      step s = .next { s with sched := rest, unobserved := unobserved, host := { s.host with word := w } } ∧
      (off ≠ 0x08 → unobserved = s.unobserved) ∧
      (off = 0x00 → w = 0x42333201) ∧
      (off = 0x04 → ∀ b, w.getLsbD b = (decide (b = 0) && s.irqEn)) ∧
      (off = 0x08 → w.getLsbD 0 = s.busy ∧ w.getLsbD 1 = s.done ∧ w.getLsbD 2 = s.err ∧ w.getLsbD 3 = s.ovr ∧
        w.toNat < 16) ∧
      (off = 0x0C → w = 0) ∧ (off = 0x10 → w = s.srcAddr) ∧ (off = 0x14 → w = s.srcLen) ∧
      (off = 0x18 → w = s.dstAddr) ∧ (off = 0x1C → w = s.dstCap) ∧ (off = 0x20 → w = s.result) ∧
      (off = 0x24 → w.toNat = s.errCode.toNat) ∧ (off = 0x28 → w = s.errPos) ∧ (off = 0x2C → w = s.grpLo) ∧
      (off = 0x30 → w.toNat = s.grpHi.toNat) ∧ (off = 0x34 → w = s.symLo) ∧ (off = 0x38 → w = s.symHi) ∧
      (off = 0x3C → w = 0)

/-- What a host write of `v` to each register but `CMD` does, whether or not a command is in flight: the read-write
registers hold it, in their unreserved bits, `STATUS` clears by ones, the others ignore it (10_state R12 to R28,
R35, 60_exceptions R167). -/
def Obligations.RegisterWriteMap : Prop :=
  ∀ (s : State) (v : Word) (rest : List Event) (off : Nat), off < 64 → off % 4 = 0 →
    s.sched = .regWrite (Config.regBase + off) 4 v :: rest →
    (off ∈ [0x00, 0x20, 0x24, 0x28, 0x3C] → step s = .next { s with sched := rest }) ∧
    (off = 0x04 → step s = .next { s with sched := rest, irqEn := v.getLsbD 0 }) ∧
    (off = 0x08 → step s = .next { s with
      sched := rest, done := s.done && !v.getLsbD 1, err := s.err && !v.getLsbD 2, ovr := s.ovr && !v.getLsbD 3 }) ∧
    (off = 0x10 → step s = .next { s with sched := rest, srcAddr := v }) ∧
    (off = 0x14 → step s = .next { s with sched := rest, srcLen := v }) ∧
    (off = 0x18 → step s = .next { s with sched := rest, dstAddr := v }) ∧
    (off = 0x1C → step s = .next { s with sched := rest, dstCap := v }) ∧
    (off = 0x2C → step s = .next { s with sched := rest, grpLo := v }) ∧
    (off = 0x30 → step s = .next { s with sched := rest, grpHi := v.setWidth 8 }) ∧
    (off = 0x34 → step s = .next { s with sched := rest, symLo := v }) ∧
    (off = 0x38 → step s = .next { s with sched := rest, symHi := v })

/-- A register access that is not 32 bits wide, or not at a multiple of 4, is refused by name, read or write; one with
no byte in the window does not reach the block (10_state R28, R29). That an access which is partly in the window
counts as one to it is the model's choice (log entry 12). -/
def Obligations.RegisterAccessForms : Prop :=
  ∀ (s : State) (addr bytes : Nat) (v : Word) (rest : List Event) (e : Event),
    (e = .regRead addr bytes ∨ e = .regWrite addr bytes v) → s.sched = e :: rest →
    (addr + bytes ≤ Config.regBase ∨ Config.regBase + 64 ≤ addr → step s = .next { s with sched := rest }) ∧
    (Config.regBase < addr + bytes → addr < Config.regBase + 64 → bytes ≠ 4 → step s = .refused .registerWidth) ∧
    (Config.regBase < addr + bytes → addr < Config.regBase + 64 → bytes = 4 →
      (addr < Config.regBase ∨ (addr - Config.regBase) % 4 ≠ 0) → step s = .refused .registerAlignment)

/-- The interrupt line (60_exceptions R170): the host sees `IRQ_EN AND (DONE OR ERR)`, and looking changes nothing of
the block; clearing `DONE` and `ERR`, or `IRQ_EN`, deasserts the line, and `OVR` does not drive it. What the look does
to the model's own record of observed completions is said by CompletionObserved. -/
def Obligations.InterruptLine : Prop :=
  (∀ (s : State) (rest : List Event), s.sched = .irqSample :: rest →
    ∃ unobserved, step s = .next { s with
      sched := rest, host := { s.host with irq := s.irqEn && (s.done || s.err) }, unobserved := unobserved }) ∧
  (∀ s : State, irqLine (acknowledge 0xE s) = false ∧ irqLine { s with irqEn := false } = false ∧
    ∀ b, irqLine { s with ovr := b } = irqLine s)

/-- The buffer hazard (70_reset R195): from acceptance until the host observes completion, a host store in the source
or destination region, or a load in the destination region, of ENCODE or DECODE, and a store in the source region of
DECLEN, is a fault. The record of unobserved commands is the model's own (log entry 6). -/
def Obligations.BufferHazardFaults : Prop :=
  ∀ (s : State) (l : Latched) (a : Addr) (v : Byte) (rest : List Event), l ∈ s.unobserved →
    ((l.cmd = 0x2 ∨ l.cmd = 0x3 ∨ l.cmd = 0x4) → l.srcAddr.toNat ≤ a.toNat →
      a.toNat < l.srcAddr.toNat + l.srcLen.toNat → s.sched = .memWrite a v :: rest → step s = .fault .hazardBuffer) ∧
    ((l.cmd = 0x2 ∨ l.cmd = 0x3) → l.dstAddr.toNat ≤ a.toNat → a.toNat < l.dstAddr.toNat + l.dstCap.toNat →
      (s.sched = .memWrite a v :: rest ∨ s.sched = .memRead a :: rest) → step s = .fault .hazardBuffer)

/-- Outside the guarded regions the host's store is done and its load completes (20_memory R40, R51, 70_reset R195):
the byte stored is found, no other byte changes, and a load of a byte that was written returns it. -/
def Obligations.HostAccessOutsideRegions : Prop :=
  ∀ (s : State) (a : Addr) (rest : List Event),
    (∀ v, s.sched = .memWrite a v :: rest →
      (∀ l ∈ s.unobserved, inSource l a.toNat = false ∧ inDest l a.toNat = false) →
      ∃ mem, step s = .next { s with sched := rest, mem := mem } ∧
        memFind mem a.toNat = some v ∧ ∀ b, b ≠ a.toNat → memFind mem b = memFind s.mem b) ∧
    (s.sched = .memRead a :: rest → (∀ l ∈ s.unobserved, inDest l a.toNat = false) →
      ∃ v draws, step s = .next { s with sched := rest, draws := draws, host := { s.host with byte := v } } ∧
        ∀ b, memFind s.mem a.toNat = some b → v = b)

/-- The guarded regions of a command (70_reset R195): the source of ENCODE, DECODE and DECLEN, the destination capacity
range of ENCODE and DECODE, and none for ENCLEN, ENCBLK, DECBLK and an illegal word. -/
def Obligations.GuardedRegions : Prop :=
  ∀ (l : Latched) (a : Nat),
    (inSource l a = true ↔ (l.cmd = 0x2 ∨ l.cmd = 0x3 ∨ l.cmd = 0x4) ∧ l.srcAddr.toNat ≤ a ∧
      a < l.srcAddr.toNat + l.srcLen.toNat) ∧
    (inDest l a = true ↔ (l.cmd = 0x2 ∨ l.cmd = 0x3) ∧ l.dstAddr.toNat ≤ a ∧ a < l.dstAddr.toNat + l.dstCap.toNat)

/-- While a command is in flight no step but its completion and reset changes a byte of its source region, or of its
destination capacity range (20_memory R46, R53): what the completion step reads is what stood there at acceptance. -/
def Obligations.HostCannotTouchRunningRegions : Prop :=
  ∀ (s t : State) (a : Nat), Inv s → s.busy = true → ¬CodecNext s → (∀ rest, s.sched ≠ .reset :: rest) →
    step s = .next t → (inSource s.lat a = true ∨ inDest s.lat a = true) →
    t.busy = true ∧ t.lat = s.lat ∧ memFind t.mem a = memFind s.mem a

/-- What ends the hazard of 70_reset R195 in the model (its own choice, log entry 6): a host read of `STATUS` that
returns `BUSY = 0`, and a look at the interrupt line that finds it asserted with no command in flight
(20_memory R51); a `STATUS` read that returns `BUSY = 1`, or a look at a line that is low, does not. -/
def Obligations.CompletionObserved : Prop :=
  ∀ (s : State) (rest : List Event),
    (s.sched = .regRead (Config.regBase + 0x08) 4 :: rest →
      ∃ w, step s = .next { s with
        sched := rest, host := { s.host with word := w }
        unobserved := if s.busy = true then s.unobserved else [] } ∧ w.getLsbD 0 = s.busy) ∧
    (s.sched = .irqSample :: rest →
      step s = .next { s with
        sched := rest, host := { s.host with irq := s.irqEn && (s.done || s.err) }
        unobserved := if s.irqEn && (s.done || s.err) && !s.busy then [] else s.unobserved })

/-- Power-on reset (10_state R37, 70_reset R191, R193): every register of the spec at its reset value, the interrupt
line deasserted, and no byte of memory known. -/
def Obligations.ResetValues : Prop :=
  State.reset.irqEn = false ∧ statusWord State.reset = 0 ∧ State.reset.srcAddr = 0 ∧ State.reset.srcLen = 0 ∧
  State.reset.dstAddr = 0 ∧ State.reset.dstCap = 0 ∧ State.reset.result = 0 ∧ State.reset.errCode = 0 ∧
  State.reset.errPos = 0 ∧ State.reset.grpLo = 0 ∧ State.reset.grpHi = 0 ∧ State.reset.symLo = 0 ∧
  State.reset.symHi = 0 ∧ regRead .id State.reset = 0x42333201 ∧ irqLine State.reset = false ∧
  ∀ a, memFind State.reset.mem a = none

/-- A reset step from any state (70_reset R190): every register takes its reset value and the command in flight is
discarded; while no ENCODE or DECODE is in flight the buffer memory is untouched (70_reset R192). What the reset does
to the model's own fields is the model's choice (log entry 14). -/
def Obligations.ResetStep : Prop :=
  ∀ (s : State) (rest : List Event), s.sched = .reset :: rest →
    ∃ mem draws, step s = .next { State.reset with mem := mem, sched := rest, draws := draws, host := s.host } ∧
      ((s.busy = false ∨ (s.lat.cmd ≠ 0x2 ∧ s.lat.cmd ≠ 0x3)) → mem = s.mem)

/-- Reset during ENCODE or DECODE (70_reset R192): outside the latched destination, of the length its checks computed,
every byte of memory is as it was; where a check fails, all of memory is. For DECODE of bytes never written the
symbols are those of one reading (log entry 20). -/
def Obligations.ResetDuringCommand : Prop :=
  ∀ (s : State) (rest : List Event), s.sched = .reset :: rest → s.busy = true →
    (s.lat.cmd = 0x2 → ∃ t, step s = .next t ∧
      (∀ a, a < s.lat.dstAddr.toNat ∨ s.lat.dstAddr.toNat + encodedLength s.lat.srcLen.toNat ≤ a →
        memFind t.mem a = memFind s.mem a) ∧
      (¬EncodeReady s.lat → t.mem = s.mem)) ∧
    (s.lat.cmd = 0x3 → ∃ (sym : Nat → Byte) (t : State), SourceAgrees s sym ∧ step s = .next t ∧
      (∀ p a, ValidSymbols sym s.lat.srcLen.toNat p →
        (a < s.lat.dstAddr.toNat ∨
          s.lat.dstAddr.toNat + ((s.lat.srcLen.toNat / 8 - 1) * 5 + byteCount p) ≤ a) →
        memFind t.mem a = memFind s.mem a) ∧
      ((∀ p, ValidSymbols sym s.lat.srcLen.toNat p →
          ¬DecodeReady s.lat ((s.lat.srcLen.toNat / 8 - 1) * 5 + byteCount p)) → t.mem = s.mem))

/-- A command completes after finitely many steps (10_state R32): a run that lays down no further events than stand in
the interleaving, and one step more, ends idle if no step of it stops. That the end of the interleaving gives CODEC the turn is the
model's form of R32's fairness (log entry 2). -/
def Obligations.CompletionAfterFinitelyManySteps : Prop :=
  ∀ s t : State, Host.Core.run Sys2Proof.core (s.sched.length + 1) s = .next t → t.busy = false ∧ t.sched = []

/-- What a step that stops is: a fault is `HAZARD_BUFFER`, on a host load or store of buffer memory (70_reset R195); a
refusal is one of the two of 10_state R29, on a host register read or write. No other step stops, and no register
access traps by a fault (60_exceptions R169). When these accesses stop is said by BufferHazardFaults,
HostAccessOutsideRegions and RegisterAccessForms. -/
def Obligations.OnlyHostAccessesStop : Prop :=
  ∀ s : State,
    (∀ f, step s = .fault f → f = .hazardBuffer ∧
      ∃ a v rest, s.sched = .memRead a :: rest ∨ s.sched = .memWrite a v :: rest) ∧
    (∀ r, step s = .refused r → (r = .registerWidth ∨ r = .registerAlignment) ∧
      ∃ a n v rest, s.sched = .regRead a n :: rest ∨ s.sched = .regWrite a n v :: rest)

/-- A host that makes only well-formed register accesses, and looks at the interrupt line, is never stopped, however
its steps fall between completions and resets (60_exceptions R169: every access that reaches the window is permitted). -/
def Obligations.RegisterAccessesNeverStop : Prop :=
  ∀ s : State, (∀ e ∈ s.sched, RegisterOnly e) → ∀ k, RunsSafely k s

/-! ### The invariant -/

/-- The invariant holds after reset; its clause on the model's own record rests on log entry 6. -/
def Obligations.InvariantAtReset : Prop := Inv State.reset

/-- Every step keeps the invariant (10_state R15, 20_memory R40, 60_exceptions R160 to R162, 70_reset R195); its
clause on the model's own record rests on log entry 6. -/
def Obligations.StepKeepsInvariant : Prop := ∀ s t : State, Inv s → step s = .next t → Inv t
end

