-- ==== Sys2Proof/Laws/State.lean ====
section
/-! SUPPORT. One lemma per field per named update of the state, true by unfolding, so that no later proof unfolds a
record update. -/

namespace Sys2Proof.Machine

/-! ### spendDraws -/

@[simp] theorem spendDraws_irqEn (s : State) : (spendDraws s).irqEn = s.irqEn := rfl
@[simp] theorem spendDraws_busy (s : State) : (spendDraws s).busy = s.busy := rfl
@[simp] theorem spendDraws_done (s : State) : (spendDraws s).done = s.done := rfl
@[simp] theorem spendDraws_err (s : State) : (spendDraws s).err = s.err := rfl
@[simp] theorem spendDraws_ovr (s : State) : (spendDraws s).ovr = s.ovr := rfl
@[simp] theorem spendDraws_srcAddr (s : State) : (spendDraws s).srcAddr = s.srcAddr := rfl
@[simp] theorem spendDraws_srcLen (s : State) : (spendDraws s).srcLen = s.srcLen := rfl
@[simp] theorem spendDraws_dstAddr (s : State) : (spendDraws s).dstAddr = s.dstAddr := rfl
@[simp] theorem spendDraws_dstCap (s : State) : (spendDraws s).dstCap = s.dstCap := rfl
@[simp] theorem spendDraws_result (s : State) : (spendDraws s).result = s.result := rfl
@[simp] theorem spendDraws_errCode (s : State) : (spendDraws s).errCode = s.errCode := rfl
@[simp] theorem spendDraws_errPos (s : State) : (spendDraws s).errPos = s.errPos := rfl
@[simp] theorem spendDraws_grpLo (s : State) : (spendDraws s).grpLo = s.grpLo := rfl
@[simp] theorem spendDraws_grpHi (s : State) : (spendDraws s).grpHi = s.grpHi := rfl
@[simp] theorem spendDraws_symLo (s : State) : (spendDraws s).symLo = s.symLo := rfl
@[simp] theorem spendDraws_symHi (s : State) : (spendDraws s).symHi = s.symHi := rfl
@[simp] theorem spendDraws_lat (s : State) : (spendDraws s).lat = s.lat := rfl
@[simp] theorem spendDraws_mem (s : State) : (spendDraws s).mem = s.mem := rfl
@[simp] theorem spendDraws_sched (s : State) : (spendDraws s).sched = s.sched := rfl
@[simp] theorem spendDraws_unobserved (s : State) : (spendDraws s).unobserved = s.unobserved := rfl
@[simp] theorem spendDraws_draws (s : State) : (spendDraws s).draws = s.draws + 2 := rfl
@[simp] theorem spendDraws_host (s : State) : (spendDraws s).host = s.host := rfl

/-! ### finish -/

@[simp] theorem finish_irqEn (v : Nat) (s : State) : (finish v s).irqEn = s.irqEn := rfl
@[simp] theorem finish_busy (v : Nat) (s : State) : (finish v s).busy = false := rfl
@[simp] theorem finish_done (v : Nat) (s : State) : (finish v s).done = true := rfl
@[simp] theorem finish_err (v : Nat) (s : State) : (finish v s).err = false := rfl
@[simp] theorem finish_ovr (v : Nat) (s : State) : (finish v s).ovr = s.ovr := rfl
@[simp] theorem finish_srcAddr (v : Nat) (s : State) : (finish v s).srcAddr = s.srcAddr := rfl
@[simp] theorem finish_srcLen (v : Nat) (s : State) : (finish v s).srcLen = s.srcLen := rfl
@[simp] theorem finish_dstAddr (v : Nat) (s : State) : (finish v s).dstAddr = s.dstAddr := rfl
@[simp] theorem finish_dstCap (v : Nat) (s : State) : (finish v s).dstCap = s.dstCap := rfl
@[simp] theorem finish_result (v : Nat) (s : State) : (finish v s).result = BitVec.ofNat 32 v := rfl
@[simp] theorem finish_errCode (v : Nat) (s : State) : (finish v s).errCode = 0 := rfl
@[simp] theorem finish_errPos (v : Nat) (s : State) : (finish v s).errPos = 0 := rfl
@[simp] theorem finish_grpLo (v : Nat) (s : State) : (finish v s).grpLo = s.grpLo := rfl
@[simp] theorem finish_grpHi (v : Nat) (s : State) : (finish v s).grpHi = s.grpHi := rfl
@[simp] theorem finish_symLo (v : Nat) (s : State) : (finish v s).symLo = s.symLo := rfl
@[simp] theorem finish_symHi (v : Nat) (s : State) : (finish v s).symHi = s.symHi := rfl
@[simp] theorem finish_lat (v : Nat) (s : State) : (finish v s).lat = s.lat := rfl
@[simp] theorem finish_mem (v : Nat) (s : State) : (finish v s).mem = s.mem := rfl
@[simp] theorem finish_sched (v : Nat) (s : State) : (finish v s).sched = s.sched := rfl
@[simp] theorem finish_unobserved (v : Nat) (s : State) : (finish v s).unobserved = s.unobserved := rfl
@[simp] theorem finish_draws (v : Nat) (s : State) : (finish v s).draws = s.draws := rfl
@[simp] theorem finish_host (v : Nat) (s : State) : (finish v s).host = s.host := rfl

/-! ### raiseError -/

@[simp] theorem raiseError_irqEn (f : Failure) (s : State) : (raiseError f s).irqEn = s.irqEn := rfl
@[simp] theorem raiseError_busy (f : Failure) (s : State) : (raiseError f s).busy = false := rfl
@[simp] theorem raiseError_done (f : Failure) (s : State) : (raiseError f s).done = false := rfl
@[simp] theorem raiseError_err (f : Failure) (s : State) : (raiseError f s).err = true := rfl
@[simp] theorem raiseError_ovr (f : Failure) (s : State) : (raiseError f s).ovr = s.ovr := rfl
@[simp] theorem raiseError_srcAddr (f : Failure) (s : State) : (raiseError f s).srcAddr = s.srcAddr := rfl
@[simp] theorem raiseError_srcLen (f : Failure) (s : State) : (raiseError f s).srcLen = s.srcLen := rfl
@[simp] theorem raiseError_dstAddr (f : Failure) (s : State) : (raiseError f s).dstAddr = s.dstAddr := rfl
@[simp] theorem raiseError_dstCap (f : Failure) (s : State) : (raiseError f s).dstCap = s.dstCap := rfl
@[simp] theorem raiseError_result (f : Failure) (s : State) : (raiseError f s).result = 0 := rfl
@[simp] theorem raiseError_errCode (f : Failure) (s : State) : (raiseError f s).errCode = errNumber f.code := rfl
@[simp] theorem raiseError_errPos (f : Failure) (s : State) : (raiseError f s).errPos = BitVec.ofNat 32 f.pos := rfl
@[simp] theorem raiseError_grpLo (f : Failure) (s : State) : (raiseError f s).grpLo = s.grpLo := rfl
@[simp] theorem raiseError_grpHi (f : Failure) (s : State) : (raiseError f s).grpHi = s.grpHi := rfl
@[simp] theorem raiseError_symLo (f : Failure) (s : State) : (raiseError f s).symLo = s.symLo := rfl
@[simp] theorem raiseError_symHi (f : Failure) (s : State) : (raiseError f s).symHi = s.symHi := rfl
@[simp] theorem raiseError_lat (f : Failure) (s : State) : (raiseError f s).lat = s.lat := rfl
@[simp] theorem raiseError_mem (f : Failure) (s : State) : (raiseError f s).mem = s.mem := rfl
@[simp] theorem raiseError_sched (f : Failure) (s : State) : (raiseError f s).sched = s.sched := rfl
@[simp] theorem raiseError_unobserved (f : Failure) (s : State) : (raiseError f s).unobserved = s.unobserved := rfl
@[simp] theorem raiseError_draws (f : Failure) (s : State) : (raiseError f s).draws = s.draws := rfl
@[simp] theorem raiseError_host (f : Failure) (s : State) : (raiseError f s).host = s.host := rfl

/-! ### acknowledge -/

@[simp] theorem acknowledge_irqEn (v : Word) (s : State) : (acknowledge v s).irqEn = s.irqEn := rfl
@[simp] theorem acknowledge_busy (v : Word) (s : State) : (acknowledge v s).busy = s.busy := rfl
@[simp] theorem acknowledge_done (v : Word) (s : State) : (acknowledge v s).done = (s.done && !v.getLsbD 1) := rfl
@[simp] theorem acknowledge_err (v : Word) (s : State) : (acknowledge v s).err = (s.err && !v.getLsbD 2) := rfl
@[simp] theorem acknowledge_ovr (v : Word) (s : State) : (acknowledge v s).ovr = (s.ovr && !v.getLsbD 3) := rfl
@[simp] theorem acknowledge_srcAddr (v : Word) (s : State) : (acknowledge v s).srcAddr = s.srcAddr := rfl
@[simp] theorem acknowledge_srcLen (v : Word) (s : State) : (acknowledge v s).srcLen = s.srcLen := rfl
@[simp] theorem acknowledge_dstAddr (v : Word) (s : State) : (acknowledge v s).dstAddr = s.dstAddr := rfl
@[simp] theorem acknowledge_dstCap (v : Word) (s : State) : (acknowledge v s).dstCap = s.dstCap := rfl
@[simp] theorem acknowledge_result (v : Word) (s : State) : (acknowledge v s).result = s.result := rfl
@[simp] theorem acknowledge_errCode (v : Word) (s : State) : (acknowledge v s).errCode = s.errCode := rfl
@[simp] theorem acknowledge_errPos (v : Word) (s : State) : (acknowledge v s).errPos = s.errPos := rfl
@[simp] theorem acknowledge_grpLo (v : Word) (s : State) : (acknowledge v s).grpLo = s.grpLo := rfl
@[simp] theorem acknowledge_grpHi (v : Word) (s : State) : (acknowledge v s).grpHi = s.grpHi := rfl
@[simp] theorem acknowledge_symLo (v : Word) (s : State) : (acknowledge v s).symLo = s.symLo := rfl
@[simp] theorem acknowledge_symHi (v : Word) (s : State) : (acknowledge v s).symHi = s.symHi := rfl
@[simp] theorem acknowledge_lat (v : Word) (s : State) : (acknowledge v s).lat = s.lat := rfl
@[simp] theorem acknowledge_mem (v : Word) (s : State) : (acknowledge v s).mem = s.mem := rfl
@[simp] theorem acknowledge_sched (v : Word) (s : State) : (acknowledge v s).sched = s.sched := rfl
@[simp] theorem acknowledge_unobserved (v : Word) (s : State) : (acknowledge v s).unobserved = s.unobserved := rfl
@[simp] theorem acknowledge_draws (v : Word) (s : State) : (acknowledge v s).draws = s.draws := rfl
@[simp] theorem acknowledge_host (v : Word) (s : State) : (acknowledge v s).host = s.host := rfl

/-! ### setSymbols -/

@[simp] theorem setSymbols_irqEn (out : Nat → Byte) (s : State) : (setSymbols out s).irqEn = s.irqEn := rfl
@[simp] theorem setSymbols_busy (out : Nat → Byte) (s : State) : (setSymbols out s).busy = s.busy := rfl
@[simp] theorem setSymbols_done (out : Nat → Byte) (s : State) : (setSymbols out s).done = s.done := rfl
@[simp] theorem setSymbols_err (out : Nat → Byte) (s : State) : (setSymbols out s).err = s.err := rfl
@[simp] theorem setSymbols_ovr (out : Nat → Byte) (s : State) : (setSymbols out s).ovr = s.ovr := rfl
@[simp] theorem setSymbols_srcAddr (out : Nat → Byte) (s : State) : (setSymbols out s).srcAddr = s.srcAddr := rfl
@[simp] theorem setSymbols_srcLen (out : Nat → Byte) (s : State) : (setSymbols out s).srcLen = s.srcLen := rfl
@[simp] theorem setSymbols_dstAddr (out : Nat → Byte) (s : State) : (setSymbols out s).dstAddr = s.dstAddr := rfl
@[simp] theorem setSymbols_dstCap (out : Nat → Byte) (s : State) : (setSymbols out s).dstCap = s.dstCap := rfl
@[simp] theorem setSymbols_result (out : Nat → Byte) (s : State) : (setSymbols out s).result = s.result := rfl
@[simp] theorem setSymbols_errCode (out : Nat → Byte) (s : State) : (setSymbols out s).errCode = s.errCode := rfl
@[simp] theorem setSymbols_errPos (out : Nat → Byte) (s : State) : (setSymbols out s).errPos = s.errPos := rfl
@[simp] theorem setSymbols_grpLo (out : Nat → Byte) (s : State) : (setSymbols out s).grpLo = s.grpLo := rfl
@[simp] theorem setSymbols_grpHi (out : Nat → Byte) (s : State) : (setSymbols out s).grpHi = s.grpHi := rfl
@[simp] theorem setSymbols_symLo (out : Nat → Byte) (s : State) : (setSymbols out s).symLo = out 3 ++ out 2 ++ out 1 ++ out 0 := rfl
@[simp] theorem setSymbols_symHi (out : Nat → Byte) (s : State) : (setSymbols out s).symHi = out 7 ++ out 6 ++ out 5 ++ out 4 := rfl
@[simp] theorem setSymbols_lat (out : Nat → Byte) (s : State) : (setSymbols out s).lat = s.lat := rfl
@[simp] theorem setSymbols_mem (out : Nat → Byte) (s : State) : (setSymbols out s).mem = s.mem := rfl
@[simp] theorem setSymbols_sched (out : Nat → Byte) (s : State) : (setSymbols out s).sched = s.sched := rfl
@[simp] theorem setSymbols_unobserved (out : Nat → Byte) (s : State) : (setSymbols out s).unobserved = s.unobserved := rfl
@[simp] theorem setSymbols_draws (out : Nat → Byte) (s : State) : (setSymbols out s).draws = s.draws := rfl
@[simp] theorem setSymbols_host (out : Nat → Byte) (s : State) : (setSymbols out s).host = s.host := rfl

/-! ### setGroup -/

@[simp] theorem setGroup_irqEn (out : Nat → Byte) (s : State) : (setGroup out s).irqEn = s.irqEn := rfl
@[simp] theorem setGroup_busy (out : Nat → Byte) (s : State) : (setGroup out s).busy = s.busy := rfl
@[simp] theorem setGroup_done (out : Nat → Byte) (s : State) : (setGroup out s).done = s.done := rfl
@[simp] theorem setGroup_err (out : Nat → Byte) (s : State) : (setGroup out s).err = s.err := rfl
@[simp] theorem setGroup_ovr (out : Nat → Byte) (s : State) : (setGroup out s).ovr = s.ovr := rfl
@[simp] theorem setGroup_srcAddr (out : Nat → Byte) (s : State) : (setGroup out s).srcAddr = s.srcAddr := rfl
@[simp] theorem setGroup_srcLen (out : Nat → Byte) (s : State) : (setGroup out s).srcLen = s.srcLen := rfl
@[simp] theorem setGroup_dstAddr (out : Nat → Byte) (s : State) : (setGroup out s).dstAddr = s.dstAddr := rfl
@[simp] theorem setGroup_dstCap (out : Nat → Byte) (s : State) : (setGroup out s).dstCap = s.dstCap := rfl
@[simp] theorem setGroup_result (out : Nat → Byte) (s : State) : (setGroup out s).result = s.result := rfl
@[simp] theorem setGroup_errCode (out : Nat → Byte) (s : State) : (setGroup out s).errCode = s.errCode := rfl
@[simp] theorem setGroup_errPos (out : Nat → Byte) (s : State) : (setGroup out s).errPos = s.errPos := rfl
@[simp] theorem setGroup_grpLo (out : Nat → Byte) (s : State) : (setGroup out s).grpLo = out 3 ++ out 2 ++ out 1 ++ out 0 := rfl
@[simp] theorem setGroup_grpHi (out : Nat → Byte) (s : State) : (setGroup out s).grpHi = out 4 := rfl
@[simp] theorem setGroup_symLo (out : Nat → Byte) (s : State) : (setGroup out s).symLo = s.symLo := rfl
@[simp] theorem setGroup_symHi (out : Nat → Byte) (s : State) : (setGroup out s).symHi = s.symHi := rfl
@[simp] theorem setGroup_lat (out : Nat → Byte) (s : State) : (setGroup out s).lat = s.lat := rfl
@[simp] theorem setGroup_mem (out : Nat → Byte) (s : State) : (setGroup out s).mem = s.mem := rfl
@[simp] theorem setGroup_sched (out : Nat → Byte) (s : State) : (setGroup out s).sched = s.sched := rfl
@[simp] theorem setGroup_unobserved (out : Nat → Byte) (s : State) : (setGroup out s).unobserved = s.unobserved := rfl
@[simp] theorem setGroup_draws (out : Nat → Byte) (s : State) : (setGroup out s).draws = s.draws := rfl
@[simp] theorem setGroup_host (out : Nat → Byte) (s : State) : (setGroup out s).host = s.host := rfl

/-! ### acceptCommand -/

@[simp] theorem acceptCommand_irqEn (w : Word) (s : State) : (acceptCommand w s).irqEn = s.irqEn := rfl
@[simp] theorem acceptCommand_busy (w : Word) (s : State) : (acceptCommand w s).busy = true := rfl
@[simp] theorem acceptCommand_done (w : Word) (s : State) : (acceptCommand w s).done = false := rfl
@[simp] theorem acceptCommand_err (w : Word) (s : State) : (acceptCommand w s).err = false := rfl
@[simp] theorem acceptCommand_ovr (w : Word) (s : State) : (acceptCommand w s).ovr = s.ovr := rfl
@[simp] theorem acceptCommand_srcAddr (w : Word) (s : State) : (acceptCommand w s).srcAddr = s.srcAddr := rfl
@[simp] theorem acceptCommand_srcLen (w : Word) (s : State) : (acceptCommand w s).srcLen = s.srcLen := rfl
@[simp] theorem acceptCommand_dstAddr (w : Word) (s : State) : (acceptCommand w s).dstAddr = s.dstAddr := rfl
@[simp] theorem acceptCommand_dstCap (w : Word) (s : State) : (acceptCommand w s).dstCap = s.dstCap := rfl
@[simp] theorem acceptCommand_result (w : Word) (s : State) : (acceptCommand w s).result = 0 := rfl
@[simp] theorem acceptCommand_errCode (w : Word) (s : State) : (acceptCommand w s).errCode = 0 := rfl
@[simp] theorem acceptCommand_errPos (w : Word) (s : State) : (acceptCommand w s).errPos = 0 := rfl
@[simp] theorem acceptCommand_grpLo (w : Word) (s : State) : (acceptCommand w s).grpLo = s.grpLo := rfl
@[simp] theorem acceptCommand_grpHi (w : Word) (s : State) : (acceptCommand w s).grpHi = s.grpHi := rfl
@[simp] theorem acceptCommand_symLo (w : Word) (s : State) : (acceptCommand w s).symLo = s.symLo := rfl
@[simp] theorem acceptCommand_symHi (w : Word) (s : State) : (acceptCommand w s).symHi = s.symHi := rfl
@[simp] theorem acceptCommand_lat (w : Word) (s : State) : (acceptCommand w s).lat = latchOperands w s := rfl
@[simp] theorem acceptCommand_mem (w : Word) (s : State) : (acceptCommand w s).mem = s.mem := rfl
@[simp] theorem acceptCommand_sched (w : Word) (s : State) : (acceptCommand w s).sched = s.sched := rfl
@[simp] theorem acceptCommand_unobserved (w : Word) (s : State) : (acceptCommand w s).unobserved = latchOperands w s :: s.unobserved := rfl
@[simp] theorem acceptCommand_draws (w : Word) (s : State) : (acceptCommand w s).draws = s.draws := rfl
@[simp] theorem acceptCommand_host (w : Word) (s : State) : (acceptCommand w s).host = s.host := rfl

end Sys2Proof.Machine
end

