-- ==== Sys2Proof/Laws/Datapath.lean ====
section
/-! SUPPORT. The laws of the pure datapath functions: the look-up tables, the bits of lanes and bytes, and what the
scan of `Validate` says. -/

namespace Sys2Proof.Machine

/-! ### Look-up tables -/

theorem ralpha_of_alpha (v : Lane) : ralpha (alpha v) = .sym v := by revert v; decide

theorem ralpha_padByte : ralpha padByte = .pad := by decide

theorem ralpha_eq_pad {c : Byte} : ralpha c = .pad ↔ c = padByte := by revert c; decide

theorem alpha_of_ralpha {c : Byte} {v : Lane} (h : ralpha c = .sym v) : alpha v = c := by
  revert c v; decide

theorem alpha_ne_padByte (v : Lane) : alpha v ≠ padByte := by revert v; decide

/-! ### Bits of lanes and of packed bytes -/

/-- Bit `x` of a group's value, counted from the most significant, is that bit of its byte stream. -/
theorem groupWord_bit (g : Nat → Byte) {x : Nat} (hx : x < 40) :
    (groupWord g).getLsbD (39 - x) = (g (x / 8)).getLsbD (7 - x % 8) := by
  show BitVec.getLsbD (w := 8 + 8 + 8 + 8 + 8) (g 0 ++ g 1 ++ g 2 ++ g 3 ++ g 4) (39 - x) = _
  simp only [BitVec.getLsbD_append]
  interval_cases x <;> rfl

/-- Bit `x` of packed lanes, counted from the most significant, is that bit of their stream. -/
theorem lanesWord_bit (v : Nat → Lane) {x : Nat} (hx : x < 40) :
    (lanesWord v).getLsbD (39 - x) = (v (x / 5)).getLsbD (4 - x % 5) := by
  show BitVec.getLsbD (w := 5 + 5 + 5 + 5 + 5 + 5 + 5 + 5)
    (v 0 ++ v 1 ++ v 2 ++ v 3 ++ v 4 ++ v 5 ++ v 6 ++ v 7) (39 - x) = _
  simp only [BitVec.getLsbD_append]
  interval_cases x <;> rfl

/-- Bit `b` of lane `j`, counted from the most significant, is bit `5j+b` of the group's bit stream. -/
theorem laneOf_groupWord_bit (g : Nat → Byte) {j b : Nat} (hj : j < 8) (hb : b < 5) :
    (laneOf (groupWord g) j).getLsbD (4 - b) = (g ((5 * j + b) / 8)).getLsbD (7 - (5 * j + b) % 8) := by
  rw [← groupWord_bit g (by omega), laneOf, BitVec.getLsbD_extractLsb']
  rw [decide_eq_true (by omega), Bool.true_and]
  congr 1; omega

/-- Bit `b` of decoded byte `k`, counted from the most significant, is bit `8k+b` of the lanes' bit stream. -/
theorem decByte_bit (v : Nat → Lane) (p : Nat) {k b : Nat} (hk : k < 5) (hb : b < 8) :
    (decByte v p k).getLsbD (7 - b) =
      (if (8 * k + b) / 5 < 8 - p then v ((8 * k + b) / 5) else 0).getLsbD (4 - (8 * k + b) % 5) := by
  rw [decByte, BitVec.getLsbD_extractLsb', decide_eq_true (by omega), Bool.true_and,
    show 32 - 8 * k + (7 - b) = 39 - (8 * k + b) by omega, lanesWord_bit _ (by omega)]

/-- Two lanes with the same five bits, counted from the most significant, are equal. -/
theorem lane_ext {v w : Lane} (h : ∀ b, b < 5 → v.getLsbD (4 - b) = w.getLsbD (4 - b)) : v = w := by
  refine BitVec.eq_of_getLsbD_eq fun i hi => ?_
  have := h (4 - i) (by omega)
  rwa [show 4 - (4 - i) = i by omega] at this

/-- Two bytes with the same eight bits, counted from the most significant, are equal. -/
theorem byte_ext {v w : Byte} (h : ∀ b, b < 8 → v.getLsbD (7 - b) = w.getLsbD (7 - b)) : v = w := by
  refine BitVec.eq_of_getLsbD_eq fun i hi => ?_
  have := h (7 - i) (by omega)
  rwa [show 7 - (7 - i) = i by omega] at this

/-! ### Counts -/

theorem realSymbols_eq (r : Nat) : realSymbols r = (8 * r + 4) / 5 := rfl

theorem encodedLength_eq (n : Nat) : encodedLength n = (n + 4) / 5 * 8 := rfl

theorem byteCount_le (p : Nat) : byteCount p ≤ 5 := by unfold byteCount; split <;> omega

theorem padCountValid_iff {p : Nat} : padCountValid p = true ↔ p = 0 ∨ p = 1 ∨ p = 3 ∨ p = 4 ∨ p = 6 := by
  simp [padCountValid, or_assoc]

/-! ### The encoder's symbols -/

theorem encSymbol_real (g : Nat → Byte) {r j : Nat} (h : 5 * j < 8 * r) :
    encSymbol g r j = alpha (laneOf (groupWord (zeroFill g r)) j) := by
  rw [encSymbol, if_pos (by rw [realSymbols_eq]; omega)]

theorem encSymbol_pad (g : Nat → Byte) {r j : Nat} (h : 8 * r ≤ 5 * j) : encSymbol g r j = padByte := by
  rw [encSymbol, if_neg (by rw [realSymbols_eq]; omega)]

/-! ### The scan of `Validate` -/

/-- Position `i` is one the scan passes over: no byte outside the alphabet and the pad, no pad before the final block,
and no symbol after a pad at or past `lo`. -/
def ScanPasses (sym : Nat → Byte) (m lo : Nat) (seenPad : Bool) (i : Nat) : Prop :=
  ralpha (sym i) ≠ .bad ∧ (ralpha (sym i) = .pad → m - 8 ≤ i) ∧
    (∀ v, ralpha (sym i) = .sym v → seenPad = false ∧ ∀ k, lo ≤ k → k < i → ralpha (sym k) ≠ .pad)

/-- The scan finds no error exactly when every position passes. -/
theorem scanSymbols_none (sym : Nat → Byte) (m fuel lo : Nat) (seenPad : Bool) :
    scanSymbols sym m fuel lo seenPad = none ↔ ∀ i, lo ≤ i → i < lo + fuel → ScanPasses sym m lo seenPad i := by
  induction fuel generalizing lo seenPad with
  | zero => simp [scanSymbols]; omega
  | succ n ih =>
    have split_first : (∀ i, lo ≤ i → i < lo + (n + 1) → ScanPasses sym m lo seenPad i) ↔
        ScanPasses sym m lo seenPad lo ∧ ∀ i, lo + 1 ≤ i → i < lo + 1 + n → ScanPasses sym m lo seenPad i := by
      refine ⟨fun h => ⟨h lo (by omega) (by omega), fun i h1 h2 => h i (by omega) (by omega)⟩, fun h i h1 h2 => ?_⟩
      rcases Nat.eq_or_lt_of_le h1 with rfl | h1
      · exact h.1
      · exact h.2 i h1 (by omega)
    rw [split_first, scanSymbols]
    cases hc : ralpha (sym lo) with
    | bad => simp [ScanPasses, hc]
    | pad =>
      by_cases hf : m - 8 ≤ lo
      · simp only [hf, if_true, ih]
        refine ⟨fun h => ⟨by simp [ScanPasses, hc, hf], fun i h1 h2 => ?_⟩, fun h i h1 h2 => ?_⟩
        · obtain ⟨a, b, c⟩ := h i h1 h2
          exact ⟨a, b, fun v hv => absurd (c v hv).1 (by simp)⟩
        · obtain ⟨a, b, c⟩ := h.2 i h1 h2
          exact ⟨a, b, fun v hv => absurd hc ((c v hv).2 lo (by omega) (by omega))⟩
      · simp [hf, ScanPasses, hc]
    | sym v =>
      cases seenPad with
      | true => simp [ScanPasses, hc]
      | false =>
        simp only [Bool.false_eq_true, if_false, ih]
        refine ⟨fun h => ⟨⟨by simp [hc], by simp [hc], fun w hw => ⟨rfl, fun k h1 h2 => by omega⟩⟩,
          fun i h1 h2 => ?_⟩, fun h i h1 h2 => ?_⟩
        · obtain ⟨a, b, c⟩ := h i h1 h2
          refine ⟨a, b, fun w hw => ⟨rfl, fun k h3 h4 => ?_⟩⟩
          rcases Nat.eq_or_lt_of_le h3 with rfl | h3
          · simp [hc]
          · exact (c w hw).2 k h3 h4
        · obtain ⟨a, b, c⟩ := h.2 i h1 h2
          exact ⟨a, b, fun w hw => ⟨rfl, fun k h3 h4 => (c w hw).2 k (by omega) h4⟩⟩

/-- An error of the scan stands at a position it scanned, and is an invalid character or invalid padding. -/
theorem scanSymbols_some {sym : Nat → Byte} {m fuel lo : Nat} {seenPad : Bool} {f : Failure}
    (h : scanSymbols sym m fuel lo seenPad = some f) :
    lo ≤ f.pos ∧ f.pos < lo + fuel ∧ (f.code = .invalidCharacter ∨ f.code = .invalidPadding) := by
  induction fuel generalizing lo seenPad with
  | zero => simp [scanSymbols] at h
  | succ n ih =>
    rw [scanSymbols] at h
    split at h
    · cases h; exact ⟨Nat.le_refl _, by simp, .inl rfl⟩
    · split at h
      · have := ih h; exact ⟨by omega, by omega, this.2.2⟩
      · cases h; exact ⟨Nat.le_refl _, by simp, .inr rfl⟩
    · split at h
      · cases h; exact ⟨Nat.le_refl _, by simp, .inr rfl⟩
      · have := ih h; exact ⟨by omega, by omega, this.2.2⟩

theorem padCount_le (sym : Nat → Byte) (m : Nat) : padCount sym m ≤ 8 := by
  have := List.countP_le_length (p := fun j => sym (m - 8 + j) == padByte) (l := List.range 8)
  simpa [padCount] using this

/-- An error after the scan stands inside the sequence, and is an invalid character or invalid padding. -/
theorem finalVerdict_error {value : Nat → Lane} {last : Nat → Byte} {m : Nat} {f : Failure} (hm : 8 ≤ m)
    (h : finalVerdict value last m = .error f) :
    f.pos < m ∧ (f.code = .invalidCharacter ∨ f.code = .invalidPadding) := by
  unfold finalVerdict at h
  split at h
  · split at h
    · cases h; exact ⟨by simp; omega, .inl rfl⟩
    · cases h
  · rename_i hv
    cases h
    have : padCount last m ≠ 0 := fun h0 => hv (by rw [h0]; decide)
    exact ⟨by simp; omega, .inr rfl⟩

/-- A count that passes after the scan is the pad count of the final block, and a valid one. -/
theorem finalVerdict_ok {value : Nat → Lane} {last : Nat → Byte} {m p : Nat} (h : finalVerdict value last m = .ok p) :
    p = padCount last m ∧ padCountValid p = true := by
  unfold finalVerdict at h
  split at h
  · rename_i hv
    split at h
    · cases h
    · cases h; exact ⟨rfl, hv⟩
  · cases h

/-- An error of `Validate` stands inside the sequence, and is an invalid character or invalid padding, however often
the final block is read. -/
theorem validateReread_error {value : Nat → Lane} {sym last : Nat → Byte} {m : Nat} {f : Failure} (hm : 8 ≤ m)
    (h : validateReread value sym last m = .error f) :
    f.pos < m ∧ (f.code = .invalidCharacter ∨ f.code = .invalidPadding) := by
  unfold validateReread at h
  split at h
  · rename_i hs
    cases h
    have := scanSymbols_some hs
    exact ⟨by omega, this.2.2⟩
  · exact finalVerdict_error hm h

/-- An error of `Validate` stands inside the sequence, and is an invalid character or invalid padding. -/
theorem validate_error {sym : Nat → Byte} {m : Nat} {f : Failure} (hm : 8 ≤ m) (h : validate sym m = .error f) :
    f.pos < m ∧ (f.code = .invalidCharacter ∨ f.code = .invalidPadding) :=
  validateReread_error hm h

/-- A pad count `Validate` returns is that of the final block as it was read last, and a valid one. -/
theorem validateReread_ok {value : Nat → Lane} {sym last : Nat → Byte} {m p : Nat}
    (h : validateReread value sym last m = .ok p) : p = padCount last m ∧ padCountValid p = true := by
  unfold validateReread at h
  split at h
  · cases h
  · exact finalVerdict_ok h

/-- A pad count `Validate` returns is a valid one. -/
theorem validate_ok_count {sym : Nat → Byte} {m p : Nat} (h : validate sym m = .ok p) : padCountValid p = true :=
  (validateReread_ok h).2

theorem padCount_congr {a b : Nat → Byte} {m : Nat} (h : ∀ j, j < 8 → a (m - 8 + j) = b (m - 8 + j)) :
    padCount a m = padCount b m := by
  unfold padCount
  exact List.countP_congr fun j hj => by rw [h j (List.mem_range.1 hj)]

/-- After a scan without error, the position before the pads that a valid count finds is an alphabet symbol. -/
theorem scanSymbols_last {sym : Nat → Byte} {m : Nat} (hm : 8 ≤ m) (hs : scanSymbols sym m m 0 false = none)
    (hp : padCountValid (padCount sym m) = true) : ∃ v, ralpha (sym (m - padCount sym m - 1)) = .sym v := by
  have hpass := (scanSymbols_none sym m m 0 false).1 hs
  have hp6 := padCountValid_iff.1 hp
  cases hq : ralpha (sym (m - padCount sym m - 1)) with
  | sym v => exact ⟨v, rfl⟩
  | bad => exact absurd hq (hpass _ (by omega) (by omega)).1
  | pad =>
    exfalso
    have hall : ∀ i, m - padCount sym m - 1 ≤ i → i < m → sym i = padByte := fun i h1 h2 => by
      obtain ⟨hb, -, hv⟩ := hpass i (by omega) (by omega)
      rcases Nat.eq_or_lt_of_le h1 with rfl | h1
      · exact ralpha_eq_pad.1 hq
      · cases hi : ralpha (sym i) with
        | sym v => exact absurd hq ((hv v hi).2 _ (by omega) h1)
        | bad => exact absurd hi hb
        | pad => exact ralpha_eq_pad.1 hi
    have hle : (List.range 8).countP (fun j => decide (7 - padCount sym m ≤ j)) ≤ padCount sym m :=
      List.countP_mono_left fun j hj hd => by
        have := List.mem_range.1 hj
        have := of_decide_eq_true hd
        rw [hall (m - 8 + j) (by omega) (by omega)]; rfl
    generalize padCount sym m = p at hle hp6
    rcases hp6 with rfl | rfl | rfl | rfl | rfl <;> exact absurd hle (by decide)

/-- Where the second reading of the final block is the first, the verdict is that of one reading. -/
theorem validateReread_eq {free : Nat → Lane} {sym last : Nat → Byte} {m : Nat} (hm : 8 ≤ m)
    (h : ∀ j, j < 8 → last (m - 8 + j) = sym (m - 8 + j)) :
    validateReread (fun i => laneValue (free i) (last i)) sym last m = validate sym m := by
  unfold validate validateReread
  cases hs : scanSymbols sym m m 0 false with
  | some f => rfl
  | none =>
    simp only [finalVerdict, padCount_congr h]
    by_cases hv : padCountValid (padCount sym m) = true
    · obtain ⟨v, hl⟩ := scanSymbols_last hm hs hv
      have hpos : m - padCount sym m - 1 = m - 8 + (7 - padCount sym m) := by
        have := padCountValid_iff.1 hv; omega
      rw [if_pos hv, if_pos hv]
      have : last (m - padCount sym m - 1) = sym (m - padCount sym m - 1) := by
        rw [hpos]; exact h _ (by omega)
      simp only [laneValue, this, hl]
    · rw [if_neg hv, if_neg hv]

end Sys2Proof.Machine
end

