-- ==== Sys2Proof/Laws/Memory.lean ====
section
/-! SUPPORT. The laws of buffer memory: a read after a write, a write leaves every other address alone, and every
write keeps the canonical form. -/

namespace Sys2Proof.Machine

@[simp] theorem memFind_memWrite_same (m : Memory) (a : Nat) (v : Byte) : memFind (memWrite m a v) a = some v := by
  induction m with
  | nil => simp [memWrite, memFind]
  | cons c rest ih =>
    obtain ⟨b, w⟩ := c
    unfold memWrite
    split
    · simp [memFind]
    · split
      · simp [memFind]
      · rename_i h
        simp [memFind, Ne.symm h, ih]

theorem memFind_memWrite_ne (m : Memory) {a b : Nat} (v : Byte) (h : b ≠ a) :
    memFind (memWrite m a v) b = memFind m b := by
  induction m with
  | nil => simp [memWrite, memFind, Ne.symm h]
  | cons c rest ih =>
    obtain ⟨d, w⟩ := c
    unfold memWrite
    split
    · simp [memFind, Ne.symm h]
    · split
      · rename_i hd
        subst hd
        simp [memFind, Ne.symm h]
      · simp [memFind, ih]

/-- What a written range reads as: the bytes laid down inside it, the memory as it was outside it. -/
theorem memFind_memWriteRange (m : Memory) (base : Nat) (f : Nat → Byte) (n a : Nat) :
    memFind (memWriteRange m base f n) a =
      if base ≤ a ∧ a < base + n then some (f (a - base)) else memFind m a := by
  induction n with
  | zero => rw [if_neg (by omega), memWriteRange]
  | succ n ih =>
    by_cases h : a = base + n
    · subst h
      simp [memWriteRange]
    · rw [memWriteRange, memFind_memWrite_ne _ _ h, ih]
      exact if_congr (by omega) rfl rfl

theorem memFind_memWriteRange_inside (m : Memory) {base i n : Nat} (f : Nat → Byte) (h : i < n) :
    memFind (memWriteRange m base f n) (base + i) = some (f i) := by
  rw [memFind_memWriteRange, if_pos (by omega), Nat.add_sub_cancel_left]

theorem memFind_memWriteRange_outside (m : Memory) {base a n : Nat} (f : Nat → Byte) (h : a < base ∨ base + n ≤ a) :
    memFind (memWriteRange m base f n) a = memFind m a := by
  rw [memFind_memWriteRange, if_neg (by omega)]

/-- Every entry of a written memory is the one written or an old one. -/
theorem mem_memWrite {m : Memory} {a : Nat} {v : Byte} {c : Host.Cell} (h : c ∈ memWrite m a v) :
    c = (a, v) ∨ c ∈ m := by
  induction m with
  | nil => simpa [memWrite] using h
  | cons d rest ih =>
    obtain ⟨b, w⟩ := d
    unfold memWrite at h
    split at h
    · simpa using h
    · split at h
      · rcases List.mem_cons.1 h with h | h
        · exact .inl h
        · exact .inr (List.mem_cons_of_mem _ h)
      · rcases List.mem_cons.1 h with h | h
        · exact .inr (h ▸ List.mem_cons_self)
        · exact (ih h).imp id (List.mem_cons_of_mem _)

theorem memWrite_wf {m : Memory} {a : Nat} (v : Byte) (hm : m.wf) (ha : a < 2 ^ 32) : (memWrite m a v).wf := by
  refine ⟨?_, fun c hc => ?_⟩
  · obtain ⟨hs, -⟩ := hm
    induction m with
    | nil => simp [memWrite]
    | cons d rest ih =>
      obtain ⟨b, w⟩ := d
      rw [List.pairwise_cons] at hs
      unfold memWrite
      split
      · rename_i hab
        refine List.pairwise_cons.2 ⟨fun x hx => ?_, List.pairwise_cons.2 hs⟩
        rcases List.mem_cons.1 hx with rfl | hx
        · exact hab
        · exact Nat.lt_trans hab (hs.1 x hx)
      · split
        · rename_i hab
          exact List.pairwise_cons.2 ⟨fun x hx => hab ▸ hs.1 x hx, hs.2⟩
        · refine List.pairwise_cons.2 ⟨fun x hx => ?_, ih hs.2⟩
          rcases mem_memWrite hx with rfl | hx
          · show b < a
            omega
          · exact hs.1 x hx
  · rcases mem_memWrite hc with rfl | hc
    · exact ha
    · exact hm.2 c hc

theorem memWriteRange_wf {m : Memory} {base n : Nat} (f : Nat → Byte) (hm : m.wf) (h : base + n ≤ 2 ^ 32) :
    (memWriteRange m base f n).wf := by
  induction n with
  | zero => exact hm
  | succ n ih => exact memWrite_wf _ (ih (by omega)) (by omega)

theorem memRead_of_find {m : Memory} {a : Nat} {v : Byte} (t : Nat) (h : memFind m a = some v) : memRead m t a = v := by
  simp [memRead, h]

end Sys2Proof.Machine
end

