-- ==== Sys2Proof/Laws/Commands.lean ====
section
/-! SUPPORT. What the shared operations of the commands can do: regions, checks, the two ways a command ends, and
the forms of a host access and of a step. -/

namespace Sys2Proof.Machine

open Sys2Proof.Safety

/-! ### Regions -/

theorem inRange_iff {base n a : Nat} : inRange base n a = true ↔ base ≤ a ∧ a < base + n := by
  simp [inRange]

/-- The overlap check fails exactly on regions that are apart. -/
theorem regionsMeet_false_iff {src lenSrc dst lenDst : Nat} :
    regionsMeet src lenSrc dst lenDst = false ↔ Apart src lenSrc dst lenDst := by
  rw [← Bool.not_eq_true]
  simp only [regionsMeet, Bool.and_eq_true, decide_eq_true_eq, Apart]
  omega

/-- A source byte that was written reads as written, whichever read finds it. -/
theorem sourceByte_of_find {s : State} {i : Nat} {b : Byte} (t : Nat)
    (h : memFind s.mem (s.lat.srcAddr.toNat + i) = some b) : sourceByte s t i = b :=
  memRead_of_find t h

theorem sourceByte_agrees (s : State) (t : Nat) : SourceAgrees s (sourceByte s t) :=
  fun _ _ _ h => sourceByte_of_find t h

theorem sourceByte_eq {s : State} {src : Nat → Byte} (h : SourceHolds s src) (t : Nat) {i : Nat}
    (hi : i < s.lat.srcLen.toNat) : sourceByte s t i = src i :=
  sourceByte_of_find t (h i hi)

/-! ### The checks of ENCODE and DECODE -/

theorem encodedLength_le_lenMax {n : Nat} : encodedLength n ≤ Config.lenMax ↔ n ≤ 0x9FFFFFFB := by
  rw [encodedLength_eq, Config.lenMax]; omega

/-- ENCODE's checks pass exactly on ready operands, and answer the encoded length. -/
theorem encodeChecks_ok_iff {l : Latched} {n : Nat} :
    encodeChecks l = .ok n ↔ EncodeReady l ∧ n = encodedLength l.srcLen.toNat := by
  have hn := @encodedLength_le_lenMax l.srcLen.toNat
  constructor
  · intro h
    unfold encodeChecks at h
    by_cases h1 : Config.lenMax < encodedLength l.srcLen.toNat
    · rw [if_pos h1] at h; cases h
    by_cases h2 : Config.memSize < l.srcAddr.toNat + l.srcLen.toNat
    · rw [if_neg h1, if_pos h2] at h; cases h
    by_cases h3 : l.dstCap.toNat < encodedLength l.srcLen.toNat
    · rw [if_neg h1, if_neg h2, if_pos h3] at h; cases h
    by_cases h4 : Config.memSize < l.dstAddr.toNat + encodedLength l.srcLen.toNat
    · rw [if_neg h1, if_neg h2, if_neg h3, if_pos h4] at h; cases h
    rw [if_neg h1, if_neg h2, if_neg h3, if_neg h4] at h
    simp only [Config.memSize] at h2 h4
    split at h
    · cases h
    · rename_i h5
      cases h
      exact ⟨⟨by omega, by omega, by omega, by omega, regionsMeet_false_iff.1 (Bool.eq_false_iff.2 h5)⟩, rfl⟩
  · rintro ⟨⟨a, b, c, d, e⟩, rfl⟩
    unfold encodeChecks
    rw [if_neg (by omega), if_neg (by rw [Config.memSize]; omega), if_neg (by omega),
      if_neg (by rw [Config.memSize]; omega), regionsMeet_false_iff.2 e]
    rfl

/-- DECODE's checks pass exactly where its source decodes and its operands are ready for the length. -/
theorem decodeChecks_ok_iff {sym : Nat → Byte} {l : Latched} {n : Nat} :
    decodeChecks sym l = .ok n ↔
      decodedLengthOf (validate sym l.srcLen.toNat) l.srcAddr.toNat l.srcLen.toNat = .ok n ∧ DecodeReady l n := by
  constructor
  · intro h
    unfold decodeChecks at h
    cases hd : decodedLengthOf (validate sym l.srcLen.toNat) l.srcAddr.toNat l.srcLen.toNat with
    | error f => rw [hd] at h; cases h
    | ok len =>
      rw [hd] at h
      dsimp only at h
      by_cases h1 : l.dstCap.toNat < len
      · rw [if_pos h1] at h; cases h
      by_cases h2 : Config.memSize < l.dstAddr.toNat + len
      · rw [if_neg h1, if_pos h2] at h; cases h
      rw [if_neg h1, if_neg h2] at h
      split at h
      · cases h
      · rename_i h3
        cases h
        have hs : l.srcAddr.toNat + l.srcLen.toNat ≤ 2 ^ 32 := by
          by_contra hc
          unfold decodedLengthOf at hd
          split at hd
          · cases hd
          · rw [if_pos (by rw [Config.memSize]; omega)] at hd
            cases hd
        simp only [Config.memSize] at h2
        exact ⟨rfl, hs, by omega, by omega, regionsMeet_false_iff.1 (Bool.eq_false_iff.2 h3)⟩
  · rintro ⟨hd, a, b, c, d⟩
    unfold decodeChecks
    rw [hd]
    dsimp only
    rw [if_neg (by omega), if_neg (by rw [Config.memSize]; omega),
      if_neg (Bool.eq_false_iff.1 (regionsMeet_false_iff.2 d))]

/-- The decoded length of a non-empty run of whole blocks inside the address space is what `Validate` says. -/
theorem decodedLengthOf_ok {src m p : Nat} (h0 : 0 < m) (h8 : m % 8 = 0) (h : src + m ≤ 2 ^ 32) :
    decodedLengthOf (.ok p) src m = .ok (decodedLength m p) := by
  unfold decodedLengthOf
  rw [if_neg (by omega), if_neg (by rw [Config.memSize]; omega), if_neg (by omega)]

/-- For such a run an error of `Validate` is reported as it is. -/
theorem decodedLengthOf_error {src m : Nat} {f : Failure} (h0 : 0 < m) (h8 : m % 8 = 0) (h : src + m ≤ 2 ^ 32) :
    decodedLengthOf (.error f) src m = .error f := by
  unfold decodedLengthOf
  rw [if_neg (by omega), if_neg (by rw [Config.memSize]; omega), if_neg (by omega)]

/-- DECLEN's verdict is that of its first reading where the final block holds written bytes. -/
theorem declenVerdict_eq {s : State} (hm : 8 ≤ s.lat.srcLen.toNat)
    (h : ∀ j, j < 8 → ∃ b, memFind s.mem (s.lat.srcAddr.toNat + (s.lat.srcLen.toNat - 8 + j)) = some b) :
    declenVerdict s = validate (sourceByte s s.draws) s.lat.srcLen.toNat :=
  validateReread_eq hm fun j hj => by
    obtain ⟨b, hb⟩ := h j hj
    rw [sourceByte_of_find _ hb, sourceByte_of_find _ hb]

/-! ### How a command ends -/

/-- A command ends with an error and nothing written but the draws' count, or with success and a change of the draws'
count, the memory and the block registers at most. -/
theorem exec_ends (i : Instr) (s : State) :
    (∃ f d, exec i s = .next (raiseError f { s with draws := d })) ∨
    (∃ n d mem lo hi glo ghi, exec i s = .next (finish n
      { s with draws := d, mem := mem, symLo := lo, symHi := hi, grpLo := glo, grpHi := ghi })) := by
  cases i
  case enclen =>
    simp only [exec, execEnclen]
    split
    · exact .inr ⟨_, s.draws, s.mem, s.symLo, s.symHi, s.grpLo, s.grpHi, rfl⟩
    · exact .inl ⟨_, s.draws, rfl⟩
  case encode =>
    simp only [exec, execEncode]
    split
    · exact .inr ⟨_, _, _, s.symLo, s.symHi, s.grpLo, s.grpHi, rfl⟩
    · exact .inl ⟨_, _, rfl⟩
  case decode =>
    simp only [exec, execDecode]
    split
    · exact .inr ⟨_, _, _, s.symLo, s.symHi, s.grpLo, s.grpHi, rfl⟩
    · exact .inl ⟨_, _, rfl⟩
  case declen =>
    simp only [exec, execDeclen]
    split
    · exact .inr ⟨_, _, s.mem, s.symLo, s.symHi, s.grpLo, s.grpHi, rfl⟩
    · exact .inl ⟨_, _, rfl⟩
  case decblk =>
    simp only [exec, execDecblk]
    split
    · exact .inr ⟨_, s.draws, s.mem, s.symLo, s.symHi, _, _, rfl⟩
    · exact .inl ⟨_, s.draws, rfl⟩
  all_goals exact .inr ⟨8, s.draws, s.mem, _, _, s.grpLo, s.grpHi, rfl⟩

theorem errNumber_ne_zero (c : ErrCode) : errNumber c ≠ 0 := by cases c <;> decide

theorem errNumber_le (c : ErrCode) : (errNumber c).toNat ≤ 8 := by cases c <;> decide

/-! ### Host accesses and steps -/

/-- A 32-bit access at a word offset of the window reaches that offset's register, wherever the window lies. -/
theorem regTarget_register {base off : Nat} (h : off < 64) (h4 : off % 4 = 0) :
    regTarget base (base + off) 4 = .register (regAtOffset off) := by
  unfold regTarget
  rw [if_neg (by omega), if_neg (by omega), if_neg (by omega), Nat.add_sub_cancel_left]

theorem observeCompletion_eq (s : State) :
    observeCompletion s = { s with unobserved := if s.busy = true then s.unobserved else [] } := by
  unfold observeCompletion; split <;> rfl

/-- A step runs the next event, spent. -/
theorem step_of_event {s : State} {e : Event} {rest : List Event} (h : s.sched = e :: rest) :
    step s = runEvent e { s with sched := rest } := by
  unfold step runNext; rw [h]

/-- A step in CODEC's turn is CODEC's, its event spent. -/
theorem step_of_codecNext {s : State} (h : CodecNext s) : step s = codecTurn { s with sched := s.sched.tail } := by
  rcases h with h | ⟨rest, h⟩
  · unfold step runNext
    rw [h]
    dsimp only [List.tail_nil]
    rw [← h]
  · rw [step_of_event h, h]; rfl

/-- A run of `k + 1` steps is a step and then a run of `k`, if the step does not stop. -/
theorem run_succ (k : Nat) (s : State) :
    Host.Core.run Sys2Proof.core (k + 1) s =
      (match step s with
      | .next s' => Host.Core.run Sys2Proof.core k s'
      | .fault r => .fault r
      | .refused r => .refused r : Host.Outcome State Fault Refusal) := by
  have h : step s = Sys2Proof.core.step s := rfl
  simp only [Host.Core.run, h]
  cases Sys2Proof.core.step s <;> rfl

/-- A run of no steps stays. -/
theorem run_zero (s : State) : Host.Core.run Sys2Proof.core 0 s = .next s := rfl

end Sys2Proof.Machine
end

