-- ==== Sys2Proof/Laws/PerInstr.lean ====
section
/-! SUPPORT. The statement made per command, and its lemma for each. -/

namespace Sys2Proof.Laws.Encoding

/-- What is said of a command as syntax: the fields of its word pass every check (30_encoding R63, R64), are found
again in the word, and the word decodes to the command. -/
def Statement (i : Instr) : Prop :=
  wellFormed i = true ∧ cmdFields (encodeInstr i) = fieldsOf i ∧ decodeWord (encodeInstr i) = .ok i

theorem enclen : Statement .enclen := by unfold Statement; decide

theorem encode : Statement .encode := by unfold Statement; decide

theorem decode : Statement .decode := by unfold Statement; decide

theorem declen : Statement .declen := by unfold Statement; decide

theorem encblk1 : Statement .encblk1 := by unfold Statement; decide

theorem encblk2 : Statement .encblk2 := by unfold Statement; decide

theorem encblk3 : Statement .encblk3 := by unfold Statement; decide

theorem encblk4 : Statement .encblk4 := by unfold Statement; decide

theorem encblk5 : Statement .encblk5 := by unfold Statement; decide

theorem decblk : Statement .decblk := by unfold Statement; decide

end Sys2Proof.Laws.Encoding
end

