-- ==== Sys2Proof/Tests/Slice0.lean ====
section
/-! SUPPORT. Tests of single checks, words and steps against 95_test_vectors and the tables of spec/, and for every
statement with hypotheses a witness that meets them. -/

namespace Sys2Proof.Tests

-- One theorem after the other: many small ones at once ask for a thread stack each.
set_option Elab.async false

open Sys2Proof.Machine Sys2Proof.Safety

/-! ### Helpers -/

/-- A buffer or a block given by its first bytes. -/
def bytes (l : List Byte) (i : Nat) : Byte := l.getD i 0

/-- Buffer memory that holds the bytes `l` from `base` on and nothing else. -/
def memoryAt (base : Nat) (l : List Byte) : Memory := memWriteRange [] base (bytes l) l.length

/-- Latched operands over buffers. -/
def operands (cmd srcAddr srcLen dstAddr dstCap : Word) : Latched :=
  { Latched.zero with cmd := cmd, srcAddr := srcAddr, srcLen := srcLen, dstAddr := dstAddr, dstCap := dstCap }

/-- A command in flight. -/
def inFlight (l : Latched) (m : Memory) : State :=
  { State.reset with lat := l, busy := true, unobserved := [l], mem := m }

/-- What `f` is of the next state; `none` where there is no next state. -/
def look {α : Type} (o : Host.Outcome State Fault Refusal) (f : State → α) : Option α :=
  match o with
  | .next t => some (f t)
  | .fault _ => none
  | .refused _ => none

/-- `RESULT`, `STATUS`, `ERRCODE` and `ERRPOS`. -/
def report (t : State) : Word × Word × BitVec 4 × Word := (t.result, statusWord t, t.errCode, t.errPos)

/-- `SYM_LO` and `SYM_HI`. -/
def symbols (t : State) : Word × Word := (t.symLo, t.symHi)

/-- `GRP_LO` and `GRP_HI`. -/
def group (t : State) : Word × Byte := (t.grpLo, t.grpHi)

/-- The known bytes of `n` addresses from `base` on. -/
def dump (base n : Nat) (t : State) : List (Option Byte) := (List.range n).map (fun i => memFind t.mem (base + i))

/-- The text "foobar". -/
def foobar : List Byte := [0x66, 0x6F, 0x6F, 0x62, 0x61, 0x72]

/-- The text "MZXW6YTBOI======". -/
def foobarText : List Byte :=
  [0x4D, 0x5A, 0x58, 0x57, 0x36, 0x59, 0x54, 0x42, 0x4F, 0x49, 0x3D, 0x3D, 0x3D, 0x3D, 0x3D, 0x3D]

/-- The text "MY======". -/
def fText : List Byte := [0x4D, 0x59, 0x3D, 0x3D, 0x3D, 0x3D, 0x3D, 0x3D]

/-- The text "AB!=====". -/
def bangText : List Byte := [0x41, 0x42, 0x21, 0x3D, 0x3D, 0x3D, 0x3D, 0x3D]

/-- ENCODE of "foobar", source at `0x1000`, destination at `0x2000`. -/
def encodeFoobar (cap : Word) : State := inFlight (operands 2 0x1000 6 0x2000 cap) (memoryAt 0x1000 foobar)

/-- DECODE (or DECLEN) of `l`, source at `0x2000`, destination at `0x3000`. -/
def decodeOf (cmd cap : Word) (l : List Byte) : State :=
  inFlight (operands cmd 0x2000 (BitVec.ofNat 32 l.length) 0x3000 cap) (memoryAt 0x2000 l)

/-- A block command in flight with the latched block registers. -/
def blockOf (cmd : Word) (grp : BitVec 40) (sym : BitVec 64) : State :=
  inFlight { Latched.zero with cmd := cmd, grp := grp, sym := sym } []

/-! ### WellFormed: an ill-formed term for each check, which the check refuses (30_encoding R60 to R64) -/

/-- V-X4: bit 31 of `RSV` set. -/
theorem test_wf_reserved : CmdFields.reservedZero { opc := 1, cnt := 0, rsv := 0x1000000 } = false ∧
    CmdFields.wf { opc := 1, cnt := 0, rsv := 0x1000000 } = false := by decide

/-- V-X1 and V-X2: opcodes 0, 7 and 15. -/
theorem test_wf_opcode : CmdFields.opcodeAssigned { opc := 0, cnt := 0, rsv := 0 } = false ∧
    CmdFields.opcodeAssigned { opc := 7, cnt := 0, rsv := 0 } = false ∧
    CmdFields.wf { opc := 15, cnt := 0, rsv := 0 } = false := by decide

/-- V-X3, V-B12, V-B13: a count with ENCODE, counts 0 and 6 with ENCBLK. -/
theorem test_wf_count : CmdFields.countLegal { opc := 2, cnt := 1, rsv := 0 } = false ∧
    CmdFields.countLegal { opc := 5, cnt := 0, rsv := 0 } = false ∧
    CmdFields.wf { opc := 5, cnt := 6, rsv := 0 } = false := by decide

/-! ### Every constructor's word, `RSV` then `CNT` then `OPC` (30_encoding R60, R61) -/

theorem test_word_enclen : decodeWord 0b0000000000000000000000000_000_0001 = .ok .enclen := by decide
theorem test_word_encode : decodeWord 0b0000000000000000000000000_000_0010 = .ok .encode := by decide
theorem test_word_decode : decodeWord 0b0000000000000000000000000_000_0011 = .ok .decode := by decide
theorem test_word_declen : decodeWord 0b0000000000000000000000000_000_0100 = .ok .declen := by decide
theorem test_word_encblk1 : decodeWord 0b0000000000000000000000000_001_0101 = .ok .encblk1 := by decide
theorem test_word_encblk2 : decodeWord 0b0000000000000000000000000_010_0101 = .ok .encblk2 := by decide
theorem test_word_encblk3 : decodeWord 0b0000000000000000000000000_011_0101 = .ok .encblk3 := by decide
theorem test_word_encblk4 : decodeWord 0b0000000000000000000000000_100_0101 = .ok .encblk4 := by decide
theorem test_word_encblk5 : decodeWord 0b0000000000000000000000000_101_0101 = .ok .encblk5 := by decide
theorem test_word_decblk : decodeWord 0b0000000000000000000000000_000_0110 = .ok .decblk := by decide

/-- V-X5: ENCBLK with `CNT = 7`, and V-X4 in a table row's numbering. -/
theorem test_word_refused : decodeTableWord 32 0x75 = none ∧ decodeTableWord 32 0x80000001 = none ∧
    decodeTableWord 32 0x55 = some .encblk5 := by decide

/-- A placed word is run by the very next step: V-L1 from reset. -/
theorem test_withFetchWord : look (step (State.reset.withFetchWord 32 0x1)) report = some (0, 0x2, 0, 0) := by decide

/-! ### One step of each command, against 95_test_vectors -/

/-- V-L8, the largest length. -/
theorem test_enclen_largest :
    look (exec .enclen (inFlight (operands 1 0 0x9FFFFFFB 0 0) [])) report = some (0xFFFFFFF8, 0x2, 0, 0) := by decide

/-- V-L9, the first overflow. -/
theorem test_enclen_overflow :
    look (exec .enclen (inFlight (operands 1 0 0x9FFFFFFC 0 0) [])) report = some (0, 0x4, 5, 0) := by decide

/-- V-B2: bytes 1 to 4 are ignored. -/
theorem test_encblk1 :
    look (exec .encblk1 (blockOf 0x15 0xAAFFFFFF72 0)) symbols = some (0x3D3D494F, 0x3D3D3D3D) := by decide

/-- V-B4. -/
theorem test_encblk2 :
    look (exec .encblk2 (blockOf 0x25 0xFFFFFFFFFF 0)) symbols = some (0x51373737, 0x3D3D3D3D) := by decide

/-- V-B11: bytes 3 and 4 are ignored. -/
theorem test_encblk3 :
    look (exec .encblk3 (blockOf 0x35 0x61626F6F66 0)) symbols = some (0x57585A4D, 0x3D3D3D36) := by decide

/-- V-B6. -/
theorem test_encblk4 :
    look (exec .encblk4 (blockOf 0x45 0xFFFFFFFFFF 0)) symbols = some (0x37373737, 0x3D593737) := by decide

/-- V-B10: five different bytes, so that an exchanged lane shows. -/
theorem test_encblk5 :
    look (exec .encblk5 (blockOf 0x55 0x9A78563412 0)) symbols = some (0x46324943, 0x3245364D) := by decide

/-- V-E12 and V-E6, W1: exact capacity, and the byte after the output is not written. -/
theorem test_encode_foobar :
    look (exec .encode (encodeFoobar 16)) (fun t => (report t, dump 0x2000 17 t)) =
      some ((16, 0x2, 0, 0), foobarText.map some ++ [none]) := by decide +kernel

/-- V-E13: one byte too little room, and memory unchanged. -/
theorem test_encode_too_small :
    look (exec .encode (encodeFoobar 15)) (fun t => (report t, t.mem)) =
      some ((0, 0x4, 1, 0), memoryAt 0x1000 foobar) := by decide +kernel

/-- V-C13 and V-C2, W2: exact capacity, and the byte after the output is not written. -/
theorem test_decode_foobar :
    look (exec .decode (decodeOf 3 6 foobarText)) (fun t => (report t, dump 0x3000 7 t)) =
      some ((6, 0x2, 0, 0), foobar.map some ++ [none]) := by decide +kernel

/-- V-C16: validation comes before the capacity. -/
theorem test_decode_bad_symbol :
    look (exec .decode (decodeOf 3 0 bangText)) report = some (0, 0x4, 4, 2) := by decide +kernel

/-- V-C14: DECLEN does not look at the capacity. -/
theorem test_declen_foobar :
    look (exec .declen (decodeOf 4 5 foobarText)) report = some (6, 0x2, 0, 0) := by decide +kernel

/-- V-C9: a pad in a block that is not the final one. -/
theorem test_declen_early_pad :
    look (exec .declen (decodeOf 4 0 (fText ++ fText))) report = some (0, 0x4, 3, 2) := by decide +kernel

/-- V-D3: three bytes, and zeros in the unused lanes. -/
theorem test_decblk_three :
    look (exec .decblk (blockOf 6 0 0x3D3D3D3657585A4D)) (fun t => (report t, group t)) =
      some ((3, 0x2, 0, 0), (0x006F6F66, 0)) := by decide +kernel

/-- V-D12: non-zero unused bits are reported at the last real symbol. -/
theorem test_decblk_unused_bits :
    look (exec .decblk (blockOf 6 0 0x3D52593657585A4D)) report = some (0, 0x4, 4, 6) := by decide +kernel

/-! ### The datapath and the lifecycle -/

/-- V-D24 and V-D19: the scan reaches the bad symbol first; a wrong pad count is reported at the first pad. -/
theorem test_validate_positions :
    validate (bytes [0x4D, 0x59, 0x3D, 0x21, 0x3D, 0x3D, 0x3D, 0x3D]) 8 =
      .error { code := .invalidCharacter, pos := 3 } ∧
    validate (bytes [0x4D, 0x5A, 0x58, 0x3D, 0x3D, 0x3D, 0x3D, 0x3D]) 8 =
      .error { code := .invalidPadding, pos := 3 } := by decide +kernel

/-- V-X7: a 1 written to `DONE` clears it alone; the line goes low. -/
theorem test_acknowledge :
    (acknowledge 0x2 { State.reset with irqEn := true, done := true, ovr := true }).done = false ∧
    (acknowledge 0x2 { State.reset with irqEn := true, done := true, ovr := true }).ovr = true ∧
    irqLine (acknowledge 0x2 { State.reset with irqEn := true, done := true, ovr := true }) = false := by decide

/-- P3's `WR GRP_LO`, `WR GRP_HI` and `ENCBLK 5`: the latched group. -/
theorem test_latch_group :
    (regWrite .cmd 0x55 (regWrite .grpHi 0xFFFFFF61 (regWrite .grpLo 0x626F6F66 State.reset))).lat.grp =
      0x61626F6F66 := by decide

/-- V-X6: the second word is dropped, `OVR` is set, and the first command's word stays latched. -/
theorem test_overrun :
    (regWrite .cmd 0x1 (regWrite .cmd 0x3 State.reset)).ovr = true ∧
    (regWrite .cmd 0x1 (regWrite .cmd 0x3 State.reset)).lat.cmd = 0x3 := by decide

/-- V-X10 by a host access at `REG_BASE`, wherever that is. -/
theorem test_read_id :
    look (step { State.reset with sched := [.regRead (Config.regBase + 0) 4] }) (fun t => t.host.word) =
      some 0x42333201 := by
  simp only [step, runNext, runEvent, hostRegRead,
    regTarget_register (base := Config.regBase) (off := 0) (by decide) (by decide)]
  rfl

/-! ### Witnesses: for every statement with hypotheses, values that meet all of them together -/

/-- A valid block with three pads, "MZXW6===". -/
def fooBlock : State := blockOf 6 0 0x3D3D3D3657585A4D

/-- The symbols of the latched block. -/
def blockSymbols (s : State) (j : Nat) : Byte := s.lat.sym.extractLsb' (8 * j) 8

theorem witness_AlphabetExact : [0x41, 0x5A, 0x32, 0x37].map (fun c : Byte => ralpha c) =
      [.sym 0, .sym 25, .sym 26, .sym 31] ∧ ralpha 0x3D = .pad ∧
    [0x00, 0x31, 0x38, 0x3C, 0x3E, 0x40, 0x5B, 0x61, 0xFF].map (fun c : Byte => ralpha c) =
      List.replicate 9 .bad := by decide

theorem witness_IllegalWordsByField : (decodeWord 0x80 = .error .reservedBits ∧ 0x80 / 2 ^ 7 ≠ 0) ∧
    decodeWord 0x0 = .error .reservedOpcode ∧ decodeWord 0x7 = .error .reservedOpcode ∧
    decodeWord 0x16 = .error .illegalCount ∧ decodeWord 0x65 = .error .illegalCount := by decide

theorem witness_EncoderCarriesBitStream :
    (1 < encodedLength 1 ∧ 5 * 1 < 8 * 1) ∧ (2 < encodedLength 1 ∧ 8 * 1 ≤ 5 * 2) := by decide

theorem witness_PadScheduleByRemainder : 0 < 6 ∧ 9 < encodedLength 6 ∧ 10 < encodedLength 6 ∧
    encodedByte (bytes foobar) 6 9 = 0x49 ∧ encodedByte (bytes foobar) 6 10 = 0x3D := by decide

theorem valid_fText : ValidSymbols (bytes fText) 8 6 :=
  ⟨by decide, by decide, by decide, by decide, by decide, by decide⟩

theorem valid_foobarText : ValidSymbols (bytes foobarText) 16 6 :=
  ⟨by decide, by decide, by decide, by decide, by decide, by decide⟩

theorem witness_ValidateAcceptsExactlyValid : 0 < 8 ∧ 8 % 8 = 0 ∧ validate (bytes fText) 8 = .ok 6 ∧
    ValidSymbols (bytes fText) 8 6 := ⟨by decide, by decide, by decide, valid_fText⟩

/-- What every clause of ValidateReportsFirstError asks of the positions before `i`. -/
abbrev CleanBefore (sym : Nat → Byte) (m i : Nat) : Prop :=
  ∀ j, j < i → ralpha (sym j) ≠ .bad ∧ (ralpha (sym j) = .pad → m - 8 ≤ j) ∧
    (∀ k, k < j → ralpha (sym k) = .pad → ralpha (sym j) = .pad)

/-- V-C8 and V-D16: a bad symbol after good ones, and at the last position. -/
theorem witness_ValidateReportsFirstError_bad :
    (2 < 8 ∧ CleanBefore (bytes bangText) 8 2 ∧ ralpha (bytes bangText 2) = .bad) ∧
    (7 < 8 ∧ CleanBefore (bytes (List.replicate 7 0x41 ++ [0x39])) 8 7 ∧
      ralpha (bytes (List.replicate 7 0x41 ++ [0x39]) 7) = .bad) := by decide

/-- V-C9: a pad before the final block. -/
theorem witness_ValidateReportsFirstError_pad : 2 < 16 ∧ CleanBefore (bytes (fText ++ fText)) 16 2 ∧
    ralpha (bytes (fText ++ fText) 2) = .pad ∧ 2 < 16 - 8 := by decide

/-- V-D22: a symbol after a pad. -/
theorem witness_ValidateReportsFirstError_symbol :
    3 < 8 ∧ CleanBefore (bytes [0x4D, 0x59, 0x3D, 0x41, 0x3D, 0x3D, 0x3D, 0x3D]) 8 3 ∧
    ralpha (bytes [0x4D, 0x59, 0x3D, 0x41, 0x3D, 0x3D, 0x3D, 0x3D] 3) = .sym 0 ∧
    ralpha (bytes [0x4D, 0x59, 0x3D, 0x41, 0x3D, 0x3D, 0x3D, 0x3D] 2) = .pad := by decide

/-- V-D17 and V-D21: two pads and eight. -/
theorem witness_ValidateCountThenCanonical_count :
    ((∀ i, i < 8 - 2 → ∃ v, ralpha (bytes (List.replicate 6 0x41 ++ [0x3D, 0x3D]) i) = .sym v) ∧
      (∀ i, 8 - 2 ≤ i → i < 8 → bytes (List.replicate 6 0x41 ++ [0x3D, 0x3D]) i = padByte)) ∧
    (∀ i, 8 - 8 ≤ i → i < 8 → bytes (List.replicate 8 0x3D) i = padByte) := by decide

/-- V-D13 and V-D9: one pad and six. -/
theorem witness_ValidateCountThenCanonical_canonical :
    ((∀ i, i < 8 - 1 → ∃ v, ralpha (bytes (List.replicate 7 0x37 ++ [0x3D]) i) = .sym v) ∧
      (∀ i, 8 - 1 ≤ i → i < 8 → bytes (List.replicate 7 0x37 ++ [0x3D]) i = padByte) ∧
      ralpha (bytes (List.replicate 7 0x37 ++ [0x3D]) (8 - 1 - 1)) = .sym 31 ∧ 31 % 2 ^ unusedBits 1 ≠ 0) ∧
    ((∀ i, i < 8 - 6 → ∃ v, ralpha (bytes ([0x4D, 0x5A] ++ List.replicate 6 0x3D) i) = .sym v) ∧
      (∀ i, 8 - 6 ≤ i → i < 8 → bytes ([0x4D, 0x5A] ++ List.replicate 6 0x3D) i = padByte) ∧
      ralpha (bytes ([0x4D, 0x5A] ++ List.replicate 6 0x3D) (8 - 6 - 1)) = .sym 25 ∧
      25 % 2 ^ unusedBits 6 ≠ 0) := by decide

theorem witness_EncodingValidates : 0 < 6 ∧ validate (encodedByte (bytes foobar) 6) (encodedLength 6) = .ok 6 := by
  decide +kernel

theorem witness_DecodeBlockInvertsEncodeBlock : (1 ≤ 1 ∧ 1 ≤ 5) ∧ (1 ≤ 5 ∧ 5 ≤ 5) := by decide

theorem witness_EncodeBlockInvertsDecodeBlock : validate (bytes fText) 8 = .ok 6 := by decide

theorem witness_EnclenCommand : encodedLength (0x9FFFFFFB#32).toNat ≤ 2 ^ 32 - 1 ∧
    2 ^ 32 - 1 < encodedLength (0x9FFFFFFC#32).toNat := by decide

theorem witness_EnclenDependsOnLengthOnly :
    (encodeFoobar 0).lat.srcLen = (inFlight (operands 1 7 6 0 0) []).lat.srcLen ∧
    (∃ t, exec .enclen (encodeFoobar 0) = .next t) ∧
    (∃ t, exec .enclen (inFlight (operands 1 7 6 0 0) []) = .next t) := ⟨rfl, ⟨_, rfl⟩, ⟨_, rfl⟩⟩

/-- V-E22, V-E23, V-E24, V-E18 and V-E19: each check of ENCODE at its place in the order. -/
theorem witness_EncodeErrorsInOrder :
    [operands 2 0x1000 0x9FFFFFFC 0x2000 0, operands 2 0xFFFFFFFC 5 0x2000 0, operands 2 0x1000 6 0x1002 15,
      operands 2 0x1000 1 0xFFFFFFF9 0x100, operands 2 0x1000 5 0x1004 0x100].map
        (fun l => look (exec .encode (inFlight l [])) report) =
      [some (0, 4, 5, 0), some (0, 4, 7, 0), some (0, 4, 1, 0), some (0, 4, 7, 1), some (0, 4, 8, 0)] := by decide

theorem ready_foobar : EncodeReady (encodeFoobar 16).lat :=
  ⟨by decide, by decide, by decide, by decide, .inr (.inr (.inr (by decide)))⟩

/-- The foobar operands, the source that ends at `2^32` (V-E15), the destination that ends at `2^32` (V-E17), the
adjacent regions (V-E20, V-E21) and the empty source (V-E0). -/
theorem witness_EncodeSucceeds : EncodeReady (encodeFoobar 16).lat ∧
    EncodeReady (operands 2 0xFFFFFFFB 5 0x2000 8) ∧ EncodeReady (operands 2 0x1000 1 0xFFFFFFF8 8) ∧
    EncodeReady (operands 2 0x1000 5 0x1005 8) ∧ EncodeReady (operands 2 0x1008 5 0x1000 8) ∧
    EncodeReady (operands 2 0x1000 0 0xFFFFFFFF 0) :=
  ⟨ready_foobar,
    ⟨by decide, by decide, by decide, by decide, .inr (.inr (.inl (by decide)))⟩,
    ⟨by decide, by decide, by decide, by decide, .inr (.inr (.inr (by decide)))⟩,
    ⟨by decide, by decide, by decide, by decide, .inr (.inr (.inr (by decide)))⟩,
    ⟨by decide, by decide, by decide, by decide, .inr (.inr (.inl (by decide)))⟩,
    ⟨by decide, by decide, by decide, by decide, .inl (by decide)⟩⟩

theorem witness_NoPartialOutput :
    (∃ t, exec .encode (encodeFoobar 15) = .next t ∧ t.err = true) ∧
    (∃ t, exec .decode (decodeOf 3 1 foobarText) = .next t ∧ t.err = true) ∧
    (∃ t, exec .decblk (blockOf 6 0 0x3D3D3D3D3D3D5A4D) = .next t ∧ t.err = true) :=
  ⟨⟨_, rfl, rfl⟩, ⟨_, rfl, rfl⟩, ⟨_, rfl, rfl⟩⟩

/-- V-D3, V-D1 and V-D5: three pads, none, and six. -/
theorem witness_DecblkSucceeds : ValidSymbols (blockSymbols fooBlock) 8 3 ∧
    ValidSymbols (blockSymbols (blockOf 6 0 0x4254593657585A4D)) 8 0 ∧
    ValidSymbols (blockSymbols (blockOf 6 0 0x3D3D3D3D3D3D594D)) 8 6 :=
  ⟨⟨by decide, by decide, by decide, by decide, by decide, by decide⟩,
    ⟨by decide, by decide, by decide, by decide, by decide, by decide⟩,
    ⟨by decide, by decide, by decide, by decide, by decide, by decide⟩⟩

/-- V-D9 and V-D17: both codes. -/
theorem witness_DecblkFails :
    validate (blockSymbols (blockOf 6 0 0x3D3D3D3D3D3D5A4D)) 8 = .error { code := .invalidCharacter, pos := 1 } ∧
    validate (blockSymbols (blockOf 6 0 0x3D3D414141414141)) 8 = .error { code := .invalidPadding, pos := 6 } := by
  decide +kernel

/-- Every byte of the source is written, so what DECODE and DECLEN find is the text. -/
theorem holds_foobarText (cmd cap : Word) : SourceHolds (decodeOf cmd cap foobarText) (bytes foobarText) := by
  have h : ∀ i, i < 16 → memFind (memoryAt 0x2000 foobarText) (0x2000 + i) = some (bytes foobarText i) := by
    decide +kernel
  exact h

theorem witness_DeclenOfSource : 0 < (decodeOf 4 5 foobarText).lat.srcLen.toNat ∧
    (decodeOf 4 5 foobarText).lat.srcLen.toNat % 8 = 0 ∧
    (decodeOf 4 5 foobarText).lat.srcAddr.toNat + (decodeOf 4 5 foobarText).lat.srcLen.toNat ≤ 2 ^ 32 ∧
    (∀ i, 16 - 8 ≤ i → i < 16 → ∃ b, memFind (decodeOf 4 5 foobarText).mem (0x2000 + i) = some b) ∧
    SourceHolds (decodeOf 4 5 foobarText) (bytes foobarText) ∧ ValidSymbols (bytes foobarText) 16 6 ∧
    validate (bytes bangText) 8 = .error { code := .invalidCharacter, pos := 2 } :=
  ⟨by decide, by decide, by decide, fun i _ h => ⟨_, holds_foobarText 4 5 i h⟩, holds_foobarText 4 5,
    valid_foobarText, by decide +kernel⟩

/-- A source of which nothing was written; and readings for each clause: V-C8 for the scan, V-D17 for the count, V-D5
and V-D9 for the unused bits. -/
theorem witness_DeclenRereadsFinalBlock :
    (0 < (operands 4 0x2000 8 0 0).srcLen.toNat ∧ (operands 4 0x2000 8 0 0).srcLen.toNat % 8 = 0 ∧
      (operands 4 0x2000 8 0 0).srcAddr.toNat + (operands 4 0x2000 8 0 0).srcLen.toNat ≤ 2 ^ 32) ∧
    scanSymbols (bytes bangText) 8 8 0 false = some { code := .invalidCharacter, pos := 2 } ∧
    (scanSymbols (bytes (List.replicate 6 0x41 ++ [0x3D, 0x3D])) 8 8 0 false = none ∧
      padCount (bytes (List.replicate 6 0x41 ++ [0x3D, 0x3D])) 8 = 2) ∧
    (scanSymbols (bytes fText) 8 8 0 false = none ∧ padCount (bytes fText) 8 = 6 ∧
      ralpha (bytes fText 1) = .sym 24 ∧ 24 % 2 ^ unusedBits 6 = 0) ∧
    (padCount (bytes ([0x4D, 0x5A] ++ List.replicate 6 0x3D)) 8 = 6 ∧
      ralpha (bytes ([0x4D, 0x5A] ++ List.replicate 6 0x3D) 1) = .sym 25 ∧ 25 % 2 ^ unusedBits 6 ≠ 0) := by
  decide +kernel

theorem witness_DecodeEmptySource : (decodeOf 3 0 []).lat.srcLen = 0 ∧
    (operands 4 0xFFFFFFFF 0 0xFFFFFFFF 0).srcLen = 0 := by decide

/-- V-C5 and V-C17. -/
theorem witness_DecodeLengthThenRange : (operands 3 0x2000 7 0x3000 0).srcLen.toNat % 8 ≠ 0 ∧
    (operands 4 0xFFFFFFF9 8 0 0).srcLen.toNat % 8 = 0 ∧
    2 ^ 32 < (operands 4 0xFFFFFFF9 8 0 0).srcAddr.toNat + (operands 4 0xFFFFFFF9 8 0 0).srcLen.toNat := by decide

/-- V-C16, V-C14, V-C19 and V-C20, with the hypotheses on the source of the first two. -/
theorem witness_DecodeErrorsInOrder :
    (0 < (decodeOf 3 5 foobarText).lat.srcLen.toNat ∧ (decodeOf 3 5 foobarText).lat.srcLen.toNat % 8 = 0 ∧
      (decodeOf 3 5 foobarText).lat.srcAddr.toNat + (decodeOf 3 5 foobarText).lat.srcLen.toNat ≤ 2 ^ 32) ∧
    look (exec .decode (decodeOf 3 0 bangText)) report = some (0, 4, 4, 2) ∧
    look (exec .decode (decodeOf 3 5 foobarText)) report = some (0, 4, 1, 0) ∧
    look (exec .decode (inFlight (operands 3 0x2000 8 0xFFFFFFFC 0x100) (memoryAt 0x2000 (foobarText.take 8))))
      report = some (0, 4, 7, 1) ∧
    look (exec .decode (inFlight (operands 3 0x2000 8 0x2007 0x100) (memoryAt 0x2000 (foobarText.take 8))))
      report = some (0, 4, 8, 0) := by decide +kernel

theorem ready_foobarText : DecodeReady (decodeOf 3 6 foobarText).lat ((16 / 8 - 1) * 5 + byteCount 6) :=
  ⟨by decide, by decide, by decide, .inr (.inr (.inr (by decide)))⟩

theorem witness_DecodeSucceeds : SourceHolds (decodeOf 3 6 foobarText) (bytes foobarText) ∧
    ValidSymbols (bytes foobarText) 16 6 ∧
    DecodeReady (decodeOf 3 6 foobarText).lat ((16 / 8 - 1) * 5 + byteCount 6) :=
  ⟨holds_foobarText 3 6, valid_foobarText, ready_foobarText⟩

/-- A source with symbols, and the empty one. -/
theorem witness_DecodeExtent :
    (∃ t, exec .decode (decodeOf 3 6 foobarText) = .next t ∧ t.done = true) ∧
    (decodeOf 3 6 foobarText).lat.srcLen ≠ 0 ∧
    (∃ t, exec .decode (decodeOf 3 0 []) = .next t ∧ t.done = true) :=
  ⟨⟨_, rfl, rfl⟩, by decide, ⟨_, rfl, rfl⟩⟩

theorem witness_DecodeInvertsEncodeCommand : ∃ t, exec .encode (encodeFoobar 16) = .next t ∧ t.done = true ∧
    (inFlight (operands 3 0x2000 16 0x3000 6) t.mem).lat.srcAddr = (encodeFoobar 16).lat.dstAddr ∧
    (inFlight (operands 3 0x2000 16 0x3000 6) t.mem).lat.srcLen = t.result ∧
    Apart (0x2000#32).toNat t.result.toNat (0x3000#32).toNat (encodeFoobar 16).lat.srcLen.toNat :=
  ⟨_, rfl, rfl, rfl, rfl, .inr (.inr (.inr (by decide)))⟩

theorem witness_ErrorsArePrecise : ∃ t, exec .encode (encodeFoobar 15) = .next t ∧ t.err = true := ⟨_, rfl, rfl⟩

theorem witness_CommandFrame : ∃ t, exec .encode (encodeFoobar 16) = .next t := ⟨_, rfl⟩

theorem witness_CommandSeesLatchedOnly :
    (∃ t, exec .decblk fooBlock = .next t) ∧
    ∃ t, exec .decblk { fooBlock with symLo := 7, irqEn := true } = .next t :=
  ⟨⟨_, rfl⟩, ⟨_, rfl⟩⟩

/-- CODEC's event next, and the empty interleaving. -/
theorem witness_StepRunsDecoded : fooBlock.busy = true ∧ CodecNext fooBlock ∧
    CodecNext { fooBlock with sched := [.codec, .reset] } ∧ decodeWord fooBlock.lat.cmd = .ok .decblk :=
  ⟨rfl, .inl rfl, .inr ⟨_, rfl⟩, by decide⟩

/-- V-X3. -/
theorem witness_IllegalCommandCompletes : (blockOf 0x12 0 0).busy = true ∧ CodecNext (blockOf 0x12 0 0) ∧
    decodeWord (blockOf 0x12 0 0).lat.cmd = .error .illegalCount := ⟨rfl, .inl rfl, by decide⟩

theorem witness_IdleCodecTurn : State.reset.busy = false ∧ CodecNext State.reset := ⟨rfl, .inl rfl⟩

/-- The host writes `w` to the register at `off`, with the block as in `s`. -/
def hostWrites (off : Nat) (w : Word) (s : State) : State := { s with sched := [.regWrite (Config.regBase + off) 4 w] }

/-- The host reads the register at `off`, with the block as in `s`. -/
def hostReads (off : Nat) (s : State) : State := { s with sched := [.regRead (Config.regBase + off) 4] }

theorem witness_CmdWriteAccepted : (hostWrites 0x0C 0x2 State.reset).busy = false ∧
    (hostWrites 0x0C 0x2 State.reset).sched = [.regWrite (Config.regBase + 0x0C) 4 0x2] := ⟨rfl, rfl⟩

theorem witness_CmdWriteDroppedWhileBusy : (hostWrites 0x0C 0x2 fooBlock).busy = true ∧
    (hostWrites 0x0C 0x2 fooBlock).sched = [.regWrite (Config.regBase + 0x0C) 4 0x2] := ⟨rfl, rfl⟩

/-- The first and the last register of the window. -/
theorem witness_RegisterReadMap : ∀ off ∈ [0x00, 0x3C], off < 64 ∧ off % 4 = 0 ∧
    (hostReads off fooBlock).sched = [.regRead (Config.regBase + off) 4] := by
  intro off h
  refine ⟨?_, ?_, rfl⟩ <;> revert off <;> decide

/-- The first and the last register of the window. -/
theorem witness_RegisterWriteMap : ∀ off ∈ [0x00, 0x3C], off < 64 ∧ off % 4 = 0 ∧
    (hostWrites off 5 fooBlock).sched = [.regWrite (Config.regBase + off) 4 5] := by
  intro off h
  refine ⟨?_, ?_, rfl⟩ <;> revert off <;> decide

/-- Outside: right after the window; of the wrong width: two bytes, the first the window's last; misaligned: the four
bytes that leave it. -/
theorem witness_RegisterAccessForms :
    Config.regBase + 64 ≤ Config.regBase + 64 ∧
    (Config.regBase < Config.regBase + 63 + 2 ∧ Config.regBase + 63 < Config.regBase + 64 ∧ 2 ≠ 4) ∧
    (Config.regBase < Config.regBase + 61 + 4 ∧ Config.regBase + 61 < Config.regBase + 64 ∧
      (Config.regBase + 61 - Config.regBase) % 4 ≠ 0) := by omega

theorem witness_InterruptLine : ({ fooBlock with sched := [.irqSample] } : State).sched = .irqSample :: [] := rfl

/-- The last byte of the source, and the first and the last of the destination capacity range. -/
theorem witness_BufferHazardFaults : (encodeFoobar 16).lat ∈ (encodeFoobar 16).unobserved ∧
    (encodeFoobar 16).lat.cmd = 0x2 ∧
    ((encodeFoobar 16).lat.srcAddr.toNat ≤ 0x1005 ∧
      0x1005 < (encodeFoobar 16).lat.srcAddr.toNat + (encodeFoobar 16).lat.srcLen.toNat) ∧
    ((encodeFoobar 16).lat.dstAddr.toNat ≤ 0x2000 ∧
      0x200F < (encodeFoobar 16).lat.dstAddr.toNat + (encodeFoobar 16).lat.dstCap.toNat) := by decide

/-- The bytes next to the regions may be stored to, and the source may be loaded from. -/
theorem witness_HostAccessOutsideRegions :
    (∀ l ∈ (encodeFoobar 16).unobserved, inSource l 0x1006 = false ∧ inDest l 0x1006 = false) ∧
    (∀ l ∈ (encodeFoobar 16).unobserved, inSource l 0x2010 = false ∧ inDest l 0x2010 = false) ∧
    (∀ l ∈ (encodeFoobar 16).unobserved, inDest l 0x1000 = false) := by decide

theorem inv_foobar : Inv (encodeFoobar 16) :=
  ⟨by decide +kernel, by decide, by decide, by decide, by decide, by decide, by decide, by decide, by decide⟩

/-- The host stores to the byte after the source while ENCODE is in flight. -/
theorem witness_HostCannotTouchRunningRegions :
    let s : State := { encodeFoobar 16 with sched := [.memWrite 0x1006 7] }
    Inv s ∧ s.busy = true ∧ ¬CodecNext s ∧ (∀ rest, s.sched ≠ .reset :: rest) ∧ (∃ t, step s = .next t) ∧
      inSource s.lat 0x1005 = true ∧ inDest s.lat 0x200F = true := by
  refine ⟨?_, rfl, ?_, ?_, ⟨_, rfl⟩, by decide, by decide⟩
  · obtain ⟨a, b, c, d, e, f, g, h, i⟩ := inv_foobar
    exact ⟨a, b, c, d, e, f, g, h, i⟩
  · rintro (h | ⟨rest, h⟩) <;> cases h
  · intro rest h; cases h

theorem witness_CompletionObserved : (hostReads 0x08 fooBlock).sched = .regRead (Config.regBase + 0x08) 4 :: [] ∧
    ({ fooBlock with sched := [.irqSample] } : State).sched = .irqSample :: [] := ⟨rfl, rfl⟩

/-- Idle; and DECBLK in flight. -/
theorem witness_ResetStep : ({ State.reset with sched := [.reset] } : State).sched = .reset :: [] ∧
    State.reset.busy = false ∧ (fooBlock.lat.cmd ≠ 0x2 ∧ fooBlock.lat.cmd ≠ 0x3) := ⟨rfl, rfl, by decide⟩

/-- ENCODE with its checks passed and failed, and DECODE of a valid source with its checks passed and failed. -/
theorem witness_ResetDuringCommand :
    ((encodeFoobar 16).busy = true ∧ (encodeFoobar 16).lat.cmd = 0x2 ∧ ¬EncodeReady (encodeFoobar 15).lat) ∧
    ((decodeOf 3 6 foobarText).lat.cmd = 0x3 ∧ SourceHolds (decodeOf 3 6 foobarText) (bytes foobarText) ∧
      ValidSymbols (bytes foobarText) 16 6 ∧
      ¬DecodeReady (decodeOf 3 5 foobarText).lat ((16 / 8 - 1) * 5 + byteCount 6)) := by
  refine ⟨⟨rfl, rfl, fun h => ?_⟩, rfl, holds_foobarText 3 6, valid_foobarText, fun h => ?_⟩
  · exact absurd h.room (by decide)
  · exact absurd h.room (by decide)

theorem witness_CompletionAfterFinitelyManySteps :
    ∃ t, Host.Core.run Sys2Proof.core (({ fooBlock with sched := [.irqSample] } : State).sched.length + 1)
      { fooBlock with sched := [.irqSample] } = .next t := ⟨_, rfl⟩

/-- A host store to the source in flight faults, and an access of two bytes to the window is refused. -/
theorem witness_OnlyHostAccessesStop :
    step { encodeFoobar 16 with sched := [.memWrite 0x1005 7] } = .fault .hazardBuffer ∧
    step { State.reset with sched := [.regRead (Config.regBase + 63) 2] } = .refused .registerWidth := by
  refine ⟨rfl, ?_⟩
  simp only [step, runNext, runEvent, hostRegRead, regTarget]
  rw [if_neg (by omega), if_pos (by decide)]

theorem witness_RegisterAccessesNeverStop :
    ∀ e ∈ [Event.regWrite (Config.regBase + 0x0C) 4 0x2, .irqSample, .regRead (Config.regBase + 0x3C) 4, .codec,
      .reset], RegisterOnly e := by
  intro e h
  simp only [List.mem_cons, List.not_mem_nil, or_false] at h
  rcases h with rfl | rfl | rfl | rfl | rfl
  · exact ⟨rfl, 0x0C, by decide, by decide, rfl⟩
  · trivial
  · exact ⟨rfl, 0x3C, by decide, by decide, rfl⟩
  · trivial
  · trivial

theorem witness_StepKeepsInvariant : Inv (encodeFoobar 16) ∧ ∃ t, step (encodeFoobar 16) = .next t :=
  ⟨inv_foobar, ⟨_, rfl⟩⟩

end Sys2Proof.Tests
end

section
/-! Host register writes: what a well-formed write through the window does to the state, and the fate of a write to
`CMD` while a command is in flight (10_state R29, R33). -/

namespace Sys2Proof.Machine

/-- While a command is in flight a command word is discarded and the overrun recorded (10_state R33). -/
theorem issueCommand_of_busy {s : State} (w : Word) (h : s.busy = true) :
    issueCommand w s = { s with ovr := true } := if_pos h

/-- A 32-bit write at a word offset of the window is a write to that offset's register. -/
theorem hostRegWrite_register {off : Nat} (v : Word) (s : State) (h : off < 64) (h4 : off % 4 = 0) :
    hostRegWrite (Config.regBase + off) 4 v s = .next (regWrite (regAtOffset off) v s) := by
  unfold hostRegWrite
  rw [regTarget_register h h4]

/-- A step whose event is a well-formed register write performs that write, the event spent. -/
theorem step_of_regWrite {s : State} {off : Nat} {v : Word} {rest : List Event} (h : off < 64) (h4 : off % 4 = 0)
    (hs : s.sched = .regWrite (Config.regBase + off) 4 v :: rest) :
    step s = .next (regWrite (regAtOffset off) v { s with sched := rest }) :=
  (step_of_event hs).trans (hostRegWrite_register v _ h h4)

/-- Settles O40: the step is a write to `CMD`, which issues its word to a busy block. -/
theorem cmdWriteDroppedWhileBusy : Obligations.CmdWriteDroppedWhileBusy := by
  intro s w rest hs hbusy
  calc step s = .next (issueCommand w { s with sched := rest }) := step_of_regWrite (by decide) (by decide) hs
    _ = .next { s with sched := rest, ovr := true } :=
      congrArg Host.Outcome.next (issueCommand_of_busy w hbusy)

end Sys2Proof.Machine
end

section
/-! Command encoding: a word is its fields, a command is its fields, and the decoder accepts a word exactly where its
fields are a command's (30_encoding R60, R61, R63). -/

namespace Sys2Proof

/-- The ten commands, in the order of the opcode map (30_encoding R61). -/
def commands : List Instr :=
  [.enclen, .encode, .decode, .declen, .encblk1, .encblk2, .encblk3, .encblk4, .encblk5, .decblk]

theorem mem_commands (i : Instr) : i ∈ commands := by cases i <;> decide

theorem encoding_statement : ∀ i : Instr, Laws.Encoding.Statement i
  | .enclen => Laws.Encoding.enclen
  | .encode => Laws.Encoding.encode
  | .decode => Laws.Encoding.decode
  | .declen => Laws.Encoding.declen
  | .encblk1 => Laws.Encoding.encblk1
  | .encblk2 => Laws.Encoding.encblk2
  | .encblk3 => Laws.Encoding.encblk3
  | .encblk4 => Laws.Encoding.encblk4
  | .encblk5 => Laws.Encoding.encblk5
  | .decblk => Laws.Encoding.decblk

@[simp] theorem decodeWord_encodeInstr (i : Instr) : decodeWord (encodeInstr i) = .ok i := by
  obtain ⟨-, -, hdecode⟩ := encoding_statement i
  exact hdecode

/-- The three fields cover the word: bits 31:7, 6:4 and 3:0 (30_encoding R60). -/
@[simp] theorem packFields_cmdFields (w : Word) : packFields (cmdFields w) = w := by
  have hcount : w.extractLsb' 7 25 ++ w.extractLsb' 4 3 = w.extractLsb' 4 28 :=
    BitVec.extractLsb'_append_extractLsb'_eq_extractLsb' rfl
  have hopcode : w.extractLsb' 4 28 ++ w.extractLsb' 0 4 = w.extractLsb' 0 32 :=
    BitVec.extractLsb'_append_extractLsb'_eq_extractLsb' rfl
  calc packFields (cmdFields w)
      = w.extractLsb' 7 25 ++ w.extractLsb' 4 3 ++ w.extractLsb' 0 4 := rfl
    _ = w.extractLsb' 0 32 := by rw [hcount, hopcode]
    _ = w := BitVec.extractLsb'_eq_self

@[simp] theorem fieldsOf_rsv (i : Instr) : (fieldsOf i).rsv = 0 := by cases i <;> rfl

/-- Each accepting row of the opcode map has its command's own opcode and count (30_encoding R61). -/
theorem fieldsOf_of_decodeOpcode {o c : Nat} {i : Instr} (h : decodeOpcode o c = .ok i) :
    o = (fieldsOf i).opc.toNat ∧ c = (fieldsOf i).cnt.toNat := by
  unfold decodeOpcode at h
  split at h
  case h_11 => split at h <;> cases h
  all_goals
    cases h
    exact ⟨rfl, rfl⟩

theorem cmdFields_of_decodeWord {w : Word} {i : Instr} (h : decodeWord w = .ok i) : cmdFields w = fieldsOf i := by
  unfold decodeWord at h
  split at h
  next hrsv =>
    obtain ⟨hopc, hcnt⟩ := fieldsOf_of_decodeOpcode h
    calc cmdFields w = ⟨(fieldsOf i).opc, (fieldsOf i).cnt, (fieldsOf i).rsv⟩ := by
          rw [← BitVec.eq_of_toNat_eq hopc, ← BitVec.eq_of_toNat_eq hcnt, fieldsOf_rsv, ← hrsv]
      _ = fieldsOf i := rfl
  next => cases h

/-- A word is accepted as a command exactly where it is that command's word: the decoder reads no more than the
fields, and the fields are the whole word. -/
theorem decodeWord_eq_ok_iff (w : Word) (i : Instr) : decodeWord w = .ok i ↔ w = encodeInstr i := by
  constructor
  · intro h
    calc w = packFields (cmdFields w) := (packFields_cmdFields w).symm
      _ = encodeInstr i := congrArg packFields (cmdFields_of_decodeWord h)
  · rintro rfl
    exact decodeWord_encodeInstr i

/-- The legal words are the words of the ten commands (30_encoding R63). -/
theorem exists_decodeWord_eq_ok_iff (w : Word) : (∃ i, decodeWord w = .ok i) ↔ w ∈ commands.map encodeInstr := by
  simp only [decodeWord_eq_ok_iff, List.mem_map, mem_commands, true_and, @eq_comm _ w]

/-- The ten legal words in numbers (30_encoding R63). -/
theorem map_encodeInstr_commands : commands.map encodeInstr =
    [0x00000001, 0x00000002, 0x00000003, 0x00000004, 0x00000015, 0x00000025, 0x00000035, 0x00000045, 0x00000055,
      0x00000006] := by decide

/-- Settles O2: decoding and encoding agree through the fields of a word, and the legal words are the ten commands'
words, which are the ten numbers. -/
theorem decodeInvertsEncode : Obligations.DecodeInvertsEncode := by
  refine ⟨decodeWord_eq_ok_iff, fun w => ?_, map_encodeInstr_commands⟩
  exact map_encodeInstr_commands ▸ exists_decodeWord_eq_ok_iff w

end Sys2Proof
end

section
/-! The datapath's tables and lengths: the two look-up tables are inverse, the counts of a final block, and the encoded
length as a least number of groups (40_datapath R83, R85, R86, R88). -/

namespace Sys2Proof.Machine

/-- No two lanes share a symbol: the reverse table tells them apart (40_datapath R83). -/
theorem alpha_injective : Function.Injective alpha := by
  intro v w h
  have hsym : SymClass.sym v = .sym w := by rw [← ralpha_of_alpha v, h, ralpha_of_alpha w]
  exact SymClass.sym.inj hsym

/-- Settles O4: the reverse table undoes the alphabet, so the alphabet is injective. -/
theorem alphabetInverse : Obligations.AlphabetInverse :=
  ⟨ralpha_of_alpha, fun _ _ h => alpha_injective h, ralpha_padByte⟩

/-- The pads of a group's encoding tell how many bytes the group had (40_datapath R86). -/
theorem byteCount_padsFor {r : Nat} (hpos : 1 ≤ r) (hle : r ≤ 5) : byteCount (padsFor r) = r := by
  interval_cases r <;> rfl

/-- Settles O6: the two tables row by row, the valid counts among `0..8`, and the inverse law. -/
theorem paddingTables : Obligations.PaddingTables := by
  refine ⟨?groupTable, ?padTable, ?validCounts, fun r hr => ?inverse⟩
  case groupTable => decide
  case padTable => decide
  case validCounts => decide
  case inverse =>
    obtain ⟨hpos, hle⟩ : 1 ≤ r ∧ r ≤ 5 := by simp at hr; omega
    exact byteCount_padsFor hpos hle

/-- The model's rounded-up quotient is the library's (00_scope R6). -/
theorem divUp_eq_ceilDiv {b : Nat} (a : Nat) (hb : 0 < b) : divUp a b = a ⌈/⌉ b := by
  rw [divUp, Nat.ceilDiv_eq_add_pred_div, Nat.add_sub_assoc hb]

/-- `q` groups of `b` hold `a` exactly when `q` is at least the rounded-up quotient. -/
theorem divUp_le_iff {a b q : Nat} (hb : 0 < b) : divUp a b ≤ q ↔ a ≤ q * b := by
  rw [divUp_eq_ceilDiv a hb, ceilDiv_le_iff_le_mul hb, Nat.mul_comm]

/-- Settles O7: the number of groups is `divUp n 5`, the least that holds `n` bytes. -/
theorem encodedLengthLeast : Obligations.EncodedLengthLeast := by
  refine ⟨rfl, fun n => ⟨divUp n 5, rfl, ?holds, fun q' hq' => ?least⟩⟩
  case holds => exact (divUp_le_iff (by decide)).1 le_rfl
  case least => exact (divUp_le_iff (by decide)).2 hq'

end Sys2Proof.Machine
end

section
/-! The length command and the overflow of the encoded length: how ENCLEN completes, which commands end in `OVERFLOW`,
and from which source length on (41_length R100 to R102). -/

namespace Sys2Proof.Machine

/-! ### The encoded length against `LEN_MAX` -/

theorem encodedLength_le_lenMax_iff_divUp_le {n : Nat} :
    encodedLength n ≤ Config.lenMax ↔ divUp n 5 ≤ 536870911 := by
  rw [encodedLength, Config.lenMax]; omega

/-- The encoded length of `n` bytes does not fit a register from `n = 0x9FFFFFFC` on (41_length R101). -/
theorem lenMax_lt_encodedLength_iff {n : Nat} : Config.lenMax < encodedLength n ↔ 0x9FFFFFFC ≤ n := by
  rw [← not_le, encodedLength_le_lenMax]; omega

/-! ### How ENCLEN completes -/

theorem exec_enclen_of_fits {s : State} (h : encodedLength s.lat.srcLen.toNat ≤ Config.lenMax) :
    exec .enclen s = .next (finish (encodedLength s.lat.srcLen.toNat) s) := by
  rw [exec, execEnclen, encLenOutcome, if_neg (not_lt.2 h)]

theorem exec_enclen_of_overflow {s : State} (h : Config.lenMax < encodedLength s.lat.srcLen.toNat) :
    exec .enclen s = .next (raiseError { code := .overflow, pos := 0 } s) := by
  rw [exec, execEnclen, encLenOutcome, if_pos h]

/-- Settles O16: the word's command, and the two ways it completes. -/
theorem enclenCommand : Obligations.EnclenCommand :=
  ⟨decodeWord_encodeInstr .enclen, fun _ => ⟨exec_enclen_of_fits, exec_enclen_of_overflow⟩⟩

/-- Only the completion registers differ after ENCLEN (41_length R102). -/
theorem exec_enclen_frame {s t : State} (h : exec .enclen s = .next t) :
    t = { s with busy := t.busy, done := t.done, err := t.err, result := t.result, errCode := t.errCode
                 errPos := t.errPos } := by
  rcases le_or_gt (encodedLength s.lat.srcLen.toNat) Config.lenMax with hfits | hover
  · cases (exec_enclen_of_fits hfits).symm.trans h
    rfl
  · cases (exec_enclen_of_overflow hover).symm.trans h
    rfl

/-- Settles O17: the frame, and equal lengths take ENCLEN the same one of its two ways. -/
theorem enclenDependsOnLengthOnly : Obligations.EnclenDependsOnLengthOnly := by
  refine ⟨fun s t => exec_enclen_frame, fun s s' t t' hlen h h' => ?_⟩
  rcases le_or_gt (encodedLength s.lat.srcLen.toNat) Config.lenMax with hfits | hover
  · cases (exec_enclen_of_fits hfits).symm.trans h
    cases (exec_enclen_of_fits (hlen ▸ hfits)).symm.trans h'
    simp [hlen]
  · cases (exec_enclen_of_overflow hover).symm.trans h
    cases (exec_enclen_of_overflow (hlen ▸ hover)).symm.trans h'
    simp

/-! ### Which commands end in `OVERFLOW` -/

/-- The command completes with `ERR` and the number of `OVERFLOW` (60_exceptions R160, R162). -/
def EndsInOverflow (i : Instr) (s : State) : Prop := ∃ t, exec i s = .next t ∧ t.err = true ∧ t.errCode = 5

theorem errNumber_eq_five_iff {c : ErrCode} : errNumber c = 5 ↔ c = .overflow := by cases c <;> decide

theorem endsInOverflow_iff_of_raiseError {i : Instr} {s s' : State} {f : Failure}
    (h : exec i s = .next (raiseError f s')) : EndsInOverflow i s ↔ f.code = .overflow := by
  simpa [EndsInOverflow, h] using errNumber_eq_five_iff

theorem not_endsInOverflow_of_finish {i : Instr} {s s' : State} {v : Nat} (h : exec i s = .next (finish v s')) :
    ¬ EndsInOverflow i s := by
  simp [EndsInOverflow, h]

theorem endsInOverflow_enclen_iff {s : State} :
    EndsInOverflow .enclen s ↔ Config.lenMax < encodedLength s.lat.srcLen.toNat := by
  rcases le_or_gt (encodedLength s.lat.srcLen.toNat) Config.lenMax with hfits | hover
  · exact iff_of_false (not_endsInOverflow_of_finish (exec_enclen_of_fits hfits)) (not_lt.2 hfits)
  · exact iff_of_true ((endsInOverflow_iff_of_raiseError (exec_enclen_of_overflow hover)).2 rfl) hover

theorem exec_encode_of_error {s : State} {f : Failure} (h : encodeChecks s.lat = .error f) :
    exec .encode s = .next (raiseError f (spendDraws s)) := by
  rw [exec, execEncode, h]

theorem exec_encode_of_ok {s : State} {n : Nat} (h : encodeChecks s.lat = .ok n) :
    exec .encode s = .next (finish n
      { spendDraws s with
        mem := memWriteRange s.mem s.lat.dstAddr.toNat
          (encodedByte (sourceByte s s.draws) s.lat.srcLen.toNat) n }) := by
  rw [exec, execEncode, h]

/-- Of ENCODE's checks the first alone reports `OVERFLOW` (42_encode R120). -/
theorem encodeChecks_error_overflow_iff {l : Latched} {f : Failure} (h : encodeChecks l = .error f) :
    f.code = .overflow ↔ Config.lenMax < encodedLength l.srcLen.toNat := by
  unfold encodeChecks at h
  split at h
  case isTrue hover =>
    cases h
    exact iff_of_true rfl hover
  case isFalse hfits =>
    refine iff_of_false ?_ hfits
    repeat' split at h
    all_goals cases h
    all_goals decide

theorem endsInOverflow_encode_iff {s : State} :
    EndsInOverflow .encode s ↔ Config.lenMax < encodedLength s.lat.srcLen.toNat := by
  cases hchecks : encodeChecks s.lat with
  | ok n =>
    obtain ⟨hready, -⟩ := encodeChecks_ok_iff.1 hchecks
    have hfits := encodedLength_le_lenMax.2 hready.noOverflow
    exact iff_of_false (not_endsInOverflow_of_finish (exec_encode_of_ok hchecks)) (not_lt.2 hfits)
  | error f =>
    calc EndsInOverflow .encode s
        ↔ f.code = .overflow := endsInOverflow_iff_of_raiseError (exec_encode_of_error hchecks)
      _ ↔ Config.lenMax < encodedLength s.lat.srcLen.toNat := encodeChecks_error_overflow_iff hchecks

/-- Settles O18: both commands end in `OVERFLOW` exactly where the encoded length exceeds `LEN_MAX`, which is from
`0x9FFFFFFC` on. -/
theorem overflowThreshold : Obligations.OverflowThreshold := by
  refine ⟨fun n => ⟨encodedLength_le_lenMax_iff_divUp_le, encodedLength_le_lenMax⟩, fun s i hi => ?_⟩
  have hover : EndsInOverflow i s ↔ Config.lenMax < encodedLength s.lat.srcLen.toNat := by
    obtain rfl | rfl : i = .enclen ∨ i = .encode := by simpa using hi
    · exact endsInOverflow_enclen_iff
    · exact endsInOverflow_encode_iff
  exact hover.trans lenMax_lt_encodedLength_iff

end Sys2Proof.Machine
end

section
/-! Errors leave no partial output: a command that ends with an error changes its completion registers and the draws'
count, and nothing else (42_encode R122, 43_decode R155). -/

namespace Sys2Proof.Machine

theorem exec_of_err {i : Instr} {s t : State} (h : exec i s = .next t) (herr : t.err = true) :
    ∃ f d, t = raiseError f { s with draws := d } := by
  obtain ⟨f, d, hfail⟩ | ⟨n, d, mem, lo, hi, glo, ghi, hok⟩ := exec_ends i s
  · cases hfail.symm.trans h
    exact ⟨f, d, rfl⟩
  · cases hok.symm.trans h
    cases herr

/-- Settles O22: the final state is the first one with an error raised, and raising an error touches neither the memory
nor the block registers. -/
theorem noPartialOutput : Obligations.NoPartialOutput := by
  intro s t i _ h herr
  obtain ⟨f, d, rfl⟩ := exec_of_err h herr
  exact ⟨rfl, rfl, rfl, rfl, rfl, rfl⟩

end Sys2Proof.Machine
end

section
/-! The encoder's symbols, one block and one buffer of them, and the two commands that write them: ENCBLK into the
symbol registers, ENCODE into buffer memory (40_datapath R84, R87, R89, 42_encode R110, R120, R121). -/

namespace Sys2Proof.Machine

open Sys2Proof.Safety

/-! ### A block's symbols -/

/-- The zero filling of a group gives the zeros of the bit stream past its last byte (40_datapath R87). -/
theorem zeroFill_bit (g : Nat → Byte) (r x : Nat) :
    (zeroFill g r (x / 8)).getLsbD (7 - x % 8) = byteStreamBit g r x := by
  unfold zeroFill byteStreamBit
  split <;> simp [*]

/-- A symbol that carries a bit of its group is the alphabet's for its five bits of the group's stream. -/
theorem encSymbol_carries (g : Nat → Byte) {r j : Nat} (hj : j < 8) (h : 5 * j < 8 * r) :
    ∃ v, encSymbol g r j = alpha v ∧ ∀ b, b < 5 → v.getLsbD (4 - b) = byteStreamBit g r (5 * j + b) := by
  refine ⟨laneOf (groupWord (zeroFill g r)) j, encSymbol_real g h, fun b hb => ?_⟩
  rw [laneOf_groupWord_bit _ hj hb, zeroFill_bit]

/-- The pads of a block are its positions past the real symbols (40_datapath R87). -/
theorem encSymbol_eq_padByte_iff (g : Nat → Byte) (r j : Nat) : encSymbol g r j = padByte ↔ realSymbols r ≤ j := by
  unfold encSymbol
  split
  next hreal => exact iff_of_false (alpha_ne_padByte _) (not_le.2 hreal)
  next hpad => exact iff_of_true rfl (not_lt.1 hpad)

/-! ### ENCBLK -/

/-- Byte lane `j` of `SYM_HI ++ SYM_LO` holds symbol `j` (10_state R26, R27). -/
theorem setSymbols_lane (out : Nat → Byte) (s : State) {j : Nat} (hj : j < 8) :
    ((setSymbols out s).symHi ++ (setSymbols out s).symLo : BitVec 64).extractLsb' (8 * j) 8 = out j := by
  refine BitVec.eq_of_getLsbD_eq fun i hi => ?_
  show BitVec.getLsbD (BitVec.extractLsb' (8 * j) 8
    ((out 7 ++ out 6 ++ out 5 ++ out 4 : BitVec (8 + 8 + 8 + 8)) ++
      (out 3 ++ out 2 ++ out 1 ++ out 0 : BitVec (8 + 8 + 8 + 8)))) i = _
  simp only [BitVec.getLsbD_extractLsb', BitVec.getLsbD_append]
  interval_cases j <;> interval_cases i <;> rfl

/-- The legal counts of ENCBLK with their commands (30_encoding R61). -/
def encblkRows : List (Nat × Instr) :=
  [(1, .encblk1), (2, .encblk2), (3, .encblk3), (4, .encblk4), (5, .encblk5)]

theorem decodeWord_of_encblkRow :
    ∀ p ∈ encblkRows, decodeWord (BitVec.ofNat 32 (5 + 16 * p.1)) = .ok p.2 := by decide

theorem decodeWord_of_illegal_encblk_count :
    ∀ r ∈ [0, 6, 7], decodeWord (BitVec.ofNat 32 (5 + 16 * r)) = .error .illegalCount := by decide

theorem exec_of_encblkRow {p : Nat × Instr} (hp : p ∈ encblkRows) (s : State) :
    exec p.2 s = .next (encodeBlock p.1 s) := by
  simp only [encblkRows, List.mem_cons, List.not_mem_nil, or_false] at hp
  obtain rfl | rfl | rfl | rfl | rfl := hp <;> rfl

/-- Lane `j` of the registers ENCBLK writes is symbol `j` of the latched group's block (42_encode R110). -/
theorem encodeBlock_lane (r : Nat) (s : State) {j : Nat} (hj : j < 8) :
    ((encodeBlock r s).symHi ++ (encodeBlock r s).symLo : BitVec 64).extractLsb' (8 * j) 8 =
      encSymbol (groupByte s.lat) r j :=
  setSymbols_lane _ s hj

/-- Settles O19: the words by the decoder, the completion as `encodeBlock`, and each lane of the symbol registers as the
group's symbol, a pad or five bits of its stream. -/
theorem encblkCommand : Obligations.EncblkCommand := by
  refine ⟨decodeWord_of_illegal_encblk_count, fun p hp => ⟨decodeWord_of_encblkRow p hp, fun s => ?_⟩⟩
  refine ⟨(encodeBlock p.1 s).symLo, (encodeBlock p.1 s).symHi, exec_of_encblkRow hp s,
    fun j hj => ⟨fun hpad => ?pad, fun hreal => ?real⟩⟩
  case pad => exact (encodeBlock_lane p.1 s hj).trans (encSymbol_pad _ hpad)
  case real =>
    obtain ⟨v, hsym, hbits⟩ := encSymbol_carries (groupByte s.lat) hj hreal
    exact ⟨v, (encodeBlock_lane p.1 s hj).trans hsym, hbits⟩

/-! ### ENCODE -/

/-- The pads of an encoding are the last `P(r)` symbols, `r` being the bytes of its last group: the groups before it
are full and have none (40_datapath R89). -/
theorem encodedByte_eq_padByte_iff (src : Nat → Byte) {n i : Nat} (hi : i < encodedLength n) :
    encodedByte src n i = padByte ↔ encodedLength n ≤ i + padsFor (n - 5 * (divUp n 5 - 1)) := by
  rw [encodedByte, encSymbol_eq_padByte_iff]
  rw [encodedLength] at hi ⊢
  have hgroups : divUp n 5 = (n + 4) / 5 := rfl
  rcases Nat.lt_or_ge (i / 8 + 1) (divUp n 5) with hfull | hlast
  · have hcount : min 5 (n - 5 * (i / 8)) = 5 := by omega
    have hpads : padsFor (n - 5 * (divUp n 5 - 1)) ≤ 8 := Nat.sub_le _ _
    rw [hcount, realSymbols_eq]
    omega
  · have hgroup : i / 8 = divUp n 5 - 1 := by omega
    have hcount : min 5 (n - 5 * (divUp n 5 - 1)) = n - 5 * (divUp n 5 - 1) := by omega
    rw [hgroup, hcount, padsFor, realSymbols_eq]
    omega

theorem exec_encode_of_ready {s : State} (h : EncodeReady s.lat) :
    exec .encode s = .next (finish (encodedLength s.lat.srcLen.toNat)
      { spendDraws s with
        mem := memWriteRange s.mem s.lat.dstAddr.toNat
          (encodedByte (sourceByte s s.draws) s.lat.srcLen.toNat) (encodedLength s.lat.srcLen.toNat) }) :=
  exec_encode_of_ok (encodeChecks_ok_iff.2 ⟨h, rfl⟩)

/-- Settles O21: the memory is the old one with the encoding of the bytes read laid down as a range, so each byte of it
is read back, its pads are the encoding's, and outside it nothing differs. -/
theorem encodeSucceeds : Obligations.EncodeSucceeds := by
  intro s hready
  refine ⟨sourceByte s s.draws, _, _, sourceByte_agrees s s.draws, exec_encode_of_ready hready,
    fun i hi => ?inside, fun a ha => ?outside⟩
  case inside =>
    have hbyte := memFind_memWriteRange_inside s.mem (base := s.lat.dstAddr.toNat)
      (encodedByte (sourceByte s s.draws) s.lat.srcLen.toNat) hi
    refine ⟨hbyte, ?_⟩
    rw [hbyte, Option.some_inj]
    exact encodedByte_eq_padByte_iff _ hi
  case outside => exact memFind_memWriteRange_outside _ _ ha

end Sys2Proof.Machine
end

section
/-! The interrupt line: what a look at it does to the state, and what the line reads where its terms are cleared
(20_memory R51, 60_exceptions R170). -/

namespace Sys2Proof.Machine

theorem irqLine_of_masked {s : State} (h : s.irqEn = false) : irqLine s = false := by
  rw [irqLine, h, Bool.false_and]

theorem irqLine_of_no_completion {s : State} (hdone : s.done = false) (herr : s.err = false) : irqLine s = false := by
  rw [irqLine, hdone, herr, Bool.or_false, Bool.and_false]

/-- A look shows the host the line; an asserted line with no command in flight tells it the completion. -/
theorem hostIrqSample_eq (s : State) :
    hostIrqSample s = { s with
      host := { s.host with irq := irqLine s }
      unobserved := if irqLine s && !s.busy then [] else s.unobserved } := by
  unfold hostIrqSample
  cases hline : irqLine s with
  | true =>
    rw [if_pos rfl, observeCompletion_eq]
    cases s.busy <;> rfl
  | false => rfl

theorem step_of_irqSample {s : State} {rest : List Event} (h : s.sched = .irqSample :: rest) :
    step s = .next { s with
      sched := rest
      host := { s.host with irq := irqLine s }
      unobserved := if irqLine s && !s.busy then [] else s.unobserved } :=
  calc step s = .next (hostIrqSample { s with sched := rest }) := step_of_event h
    _ = _ := congrArg Host.Outcome.next (hostIrqSample_eq _)

/-- Settles O44: the step is a look; writing ones over `DONE` and `ERR` clears both terms of the line, and `OVR` is no
term of it. -/
theorem interruptLine : Obligations.InterruptLine := by
  refine ⟨fun s rest hs => ⟨_, step_of_irqSample hs⟩, fun s => ⟨?cleared, irqLine_of_masked rfl, fun _ => rfl⟩⟩
  case cleared =>
    have hdone : (acknowledge 0xE s).done = false := Bool.and_false s.done
    have herr : (acknowledge 0xE s).err = false := Bool.and_false s.err
    exact irqLine_of_no_completion hdone herr

end Sys2Proof.Machine
end

section
/-! What a command can change: how it ends, where it writes memory, and which block registers it writes
(10_state R36, 42_encode R121, 43_decode R156, 60_exceptions R161, R162). -/

namespace Sys2Proof.Machine

open Sys2Proof.Safety

/-- A memory that differs from `m` in the `n` bytes from the latched destination on at most, which lie inside the
capacity and inside the address space. -/
def WritesDestination (l : Latched) (n : Nat) (m m' : Memory) : Prop :=
  ∃ f, m' = memWriteRange m l.dstAddr.toNat f n ∧ n ≤ l.dstCap.toNat ∧ l.dstAddr.toNat + n ≤ 2 ^ 32

/-- `exec_ends` with the command in view: which commands may write memory, the symbol registers and the group
registers when they succeed. -/
structure SuccessEffects (i : Instr) (s t : State) (n : Nat) : Prop where
  completes : ∃ d, t = finish n
    { s with draws := d, mem := t.mem, symLo := t.symLo, symHi := t.symHi, grpLo := t.grpLo, grpHi := t.grpHi }
  group : i ≠ .decblk → t.grpLo = s.grpLo ∧ t.grpHi = s.grpHi
  symbols : i ∉ [Instr.encblk1, .encblk2, .encblk3, .encblk4, .encblk5] → t.symLo = s.symLo ∧ t.symHi = s.symHi
  memory : t.mem = s.mem ∨ (i = .encode ∨ i = .decode) ∧ WritesDestination s.lat n s.mem t.mem

theorem exec_effects {i : Instr} {s t : State} (h : exec i s = .next t) :
    (∃ f d, t = raiseError f { s with draws := d }) ∨ ∃ n, SuccessEffects i s t n := by
  cases i
  case enclen =>
    simp only [exec, execEnclen] at h
    split at h
    · cases h
      exact .inr ⟨_, ⟨_, rfl⟩, fun _ => ⟨rfl, rfl⟩, fun _ => ⟨rfl, rfl⟩, .inl rfl⟩
    · cases h
      exact .inl ⟨_, s.draws, rfl⟩
  case encode =>
    simp only [exec, execEncode] at h
    split at h
    next len hlen =>
      cases h
      obtain ⟨hready, rfl⟩ := encodeChecks_ok_iff.1 hlen
      exact .inr ⟨_, ⟨_, rfl⟩, fun _ => ⟨rfl, rfl⟩, fun _ => ⟨rfl, rfl⟩,
        .inr ⟨.inl rfl, _, rfl, hready.room, hready.destFits⟩⟩
    next =>
      cases h
      exact .inl ⟨_, _, rfl⟩
  case decode =>
    simp only [exec, execDecode] at h
    split at h
    next len hlen =>
      cases h
      obtain ⟨-, hready⟩ := decodeChecks_ok_iff.1 hlen
      exact .inr ⟨_, ⟨_, rfl⟩, fun _ => ⟨rfl, rfl⟩, fun _ => ⟨rfl, rfl⟩,
        .inr ⟨.inr rfl, _, rfl, hready.room, hready.destFits⟩⟩
    next =>
      cases h
      exact .inl ⟨_, _, rfl⟩
  case declen =>
    simp only [exec, execDeclen] at h
    split at h
    · cases h
      exact .inr ⟨_, ⟨_, rfl⟩, fun _ => ⟨rfl, rfl⟩, fun _ => ⟨rfl, rfl⟩, .inl rfl⟩
    · cases h
      exact .inl ⟨_, _, rfl⟩
  case decblk =>
    simp only [exec, execDecblk] at h
    split at h
    · cases h
      exact .inr ⟨_, ⟨_, rfl⟩, fun hne => absurd rfl hne, fun _ => ⟨rfl, rfl⟩, .inl rfl⟩
    · cases h
      exact .inl ⟨_, s.draws, rfl⟩
  all_goals
    cases h
    exact .inr ⟨8, ⟨_, rfl⟩, fun _ => ⟨rfl, rfl⟩, fun hne => absurd (by decide) hne, .inl rfl⟩

theorem WritesDestination.wf {l : Latched} {n : Nat} {m m' : Memory} (h : WritesDestination l n m m') (hm : m.wf) :
    m'.wf := by
  obtain ⟨f, rfl, -, hfits⟩ := h
  exact memWriteRange_wf f hm hfits

theorem WritesDestination.outside {l : Latched} {n : Nat} {m m' : Memory} (h : WritesDestination l n m m') {a : Nat}
    (ha : a < l.dstAddr.toNat ∨ l.dstAddr.toNat + l.dstCap.toNat ≤ a) : memFind m' a = memFind m a := by
  obtain ⟨f, rfl, hroom, -⟩ := h
  exact memFind_memWriteRange_outside m f (by omega)

theorem exec_keeps_mem_wf {i : Instr} {s t : State} (h : exec i s = .next t) (hm : s.mem.wf) : t.mem.wf := by
  obtain ⟨f, d, rfl⟩ | ⟨n, hok⟩ := exec_effects h
  · exact hm
  · rcases hok.memory with hmem | ⟨-, hmem⟩
    · exact hmem ▸ hm
    · exact hmem.wf hm

/-- Settles O32: a command ends in `finish` or in `raiseError`, and each clears `BUSY` and sets one of the two flags. -/
theorem everyCommandCompletes : Obligations.EveryCommandCompletes := by
  intro i s
  obtain ⟨f, d, h⟩ | ⟨n, d, mem, lo, hi, glo, ghi, h⟩ := exec_ends i s
  · exact ⟨_, h, rfl, by simp⟩
  · exact ⟨_, h, rfl, by simp⟩

/-- Settles O33: an error is `raiseError` on the state with its draws counted, and every code has a number of `1..8`. -/
theorem errorsArePrecise : Obligations.ErrorsArePrecise := by
  intro i s t h herr
  obtain ⟨f, d, rfl⟩ := exec_of_err h herr
  exact ⟨errNumber_ne_zero f.code, errNumber_le f.code, rfl⟩

/-- Settles O34: a command that fails writes its completion only, and one that succeeds has `SuccessEffects`. -/
theorem commandFrame : Obligations.CommandFrame := by
  intro i s t h
  obtain ⟨f, d, rfl⟩ | ⟨n, hok⟩ := exec_effects h
  · simp
  · obtain ⟨⟨d, ht⟩, hgroup, hsymbols, hmemory⟩ := hok
    refine ⟨?_, ?_, ?_, ?_, ?_, ?_, ?_, ?_, ?_, ?_, hgroup, hsymbols, fun hi => ?unwritten, fun a ha => ?outside⟩
    case unwritten =>
      rcases hmemory with hmem | ⟨hwriter, -⟩
      · exact hmem
      · exact absurd (by simpa using hwriter) hi
    case outside =>
      rcases hmemory with hmem | ⟨-, hmem⟩
      · rw [hmem]
      · exact hmem.outside ha
    all_goals rw [ht]; rfl

end Sys2Proof.Machine
end

section
/-! The invariant: it holds at reset, every completion establishes it, and every event keeps it (10_state R15, R31,
20_memory R40, 60_exceptions R160 to R162, 70_reset R195). -/

namespace Sys2Proof.Machine

open Sys2Proof.Safety

/-- Settles O56: at reset no flag is set, no code reported, and no byte listed. -/
theorem invariantAtReset : Obligations.InvariantAtReset where
  memory := ⟨List.Pairwise.nil, fun _ hc => absurd hc List.not_mem_nil⟩
  exclusive := by decide
  busyFlags := by decide
  busyCleared := by decide
  codeKnown := by decide
  doneNoCode := by decide
  errHasCode := by decide
  codeNoResult := by decide
  guarded := by decide

/-- A successful completion establishes the invariant whatever the flags were before. -/
theorem inv_finish (n : Nat) {s : State} (hm : s.mem.wf) : Inv (finish n s) where
  memory := hm
  exclusive := by simp
  busyFlags := by simp
  busyCleared := by simp
  codeKnown := by simp
  doneNoCode := by simp
  errHasCode := by simp
  codeNoResult := by simp
  guarded := by simp

/-- A completion with an error establishes the invariant: every code has a number of `1..8`. -/
theorem inv_raiseError (f : Failure) {s : State} (hm : s.mem.wf) : Inv (raiseError f s) where
  memory := hm
  exclusive := by simp
  busyFlags := by simp
  busyCleared := by simp
  codeKnown := errNumber_le f.code
  doneNoCode := by simp
  errHasCode := fun _ => errNumber_ne_zero f.code
  codeNoResult := by simp
  guarded := by simp

theorem inv_of_exec {i : Instr} {s t : State} (h : exec i s = .next t) (hm : s.mem.wf) : Inv t := by
  have hmt := exec_keeps_mem_wf h hm
  obtain ⟨f, d, rfl⟩ | ⟨n, hok⟩ := exec_effects h
  · exact inv_raiseError f hm
  · obtain ⟨d, ht⟩ := hok.completes
    rw [ht]
    exact inv_finish n hmt

theorem inv_of_complete {s t : State} (h : complete s = .next t) (hm : s.mem.wf) : Inv t := by
  unfold complete at h
  split at h
  · exact inv_of_exec h hm
  · cases h
    exact inv_raiseError _ hm

theorem codecTurn_keeps_inv {s t : State} (h : codecTurn s = .next t) (hs : Inv s) : Inv t := by
  unfold codecTurn at h
  split at h
  · exact inv_of_complete h hs.memory
  · cases h
    exact hs

/-- Acceptance clears the completion and records the latched operands as unobserved (10_state R31, 70_reset R195). -/
theorem inv_acceptCommand (w : Word) {s : State} (hs : Inv s) : Inv (acceptCommand w s) where
  memory := hs.memory
  exclusive := by simp
  busyFlags := by simp
  busyCleared := by simp
  codeKnown := by simp
  doneNoCode := by simp
  errHasCode := by simp
  codeNoResult := by simp
  guarded := by simp

/-- Acknowledgement only clears flags (60_exceptions R167). -/
theorem inv_acknowledge (v : Word) {s : State} (hs : Inv s) : Inv (acknowledge v s) where
  memory := hs.memory
  exclusive := fun ⟨hdone, herr⟩ => hs.exclusive ⟨Bool.and_elim_left hdone, Bool.and_elim_left herr⟩
  busyFlags := fun hbusy => by simp [hs.busyFlags hbusy]
  busyCleared := hs.busyCleared
  codeKnown := hs.codeKnown
  doneNoCode := fun hdone => hs.doneNoCode (Bool.and_elim_left hdone)
  errHasCode := fun herr => hs.errHasCode (Bool.and_elim_left herr)
  codeNoResult := hs.codeNoResult
  guarded := hs.guarded

theorem inv_issueCommand (w : Word) {s : State} (hs : Inv s) : Inv (issueCommand w s) := by
  unfold issueCommand
  split
  · exact { hs with }
  · exact inv_acceptCommand w hs

/-- The record of unobserved commands is dropped only while none is in flight. -/
theorem inv_observeCompletion {s : State} (hs : Inv s) : Inv (observeCompletion s) := by
  unfold observeCompletion
  split
  next => exact hs
  next hidle => exact { hs with guarded := fun hbusy => absurd hbusy hidle }

theorem inv_regWrite (r : Reg) (v : Word) {s : State} (hs : Inv s) : Inv (regWrite r v s) := by
  cases r
  case status => exact inv_acknowledge v hs
  case cmd => exact inv_issueCommand v hs
  all_goals exact { hs with }

theorem inv_hostReadReg (r : Reg) {s : State} (hs : Inv s) : Inv (hostReadReg r s) := by
  cases r
  case status => exact inv_observeCompletion { hs with }
  all_goals exact { hs with }

theorem inv_hostIrqSample {s : State} (hs : Inv s) : Inv (hostIrqSample s) := by
  unfold hostIrqSample
  split
  · exact inv_observeCompletion { hs with }
  · exact { hs with }

/-! ### Reset during a command -/

theorem eq_ok_of_lengthOrNone_ne_zero {r : Except Failure Nat} (h : lengthOrNone r ≠ 0) :
    r = .ok (lengthOrNone r) := by
  cases r with
  | ok n => rfl
  | error f => exact absurd rfl h

theorem resetLength_of_idle {s : State} (h : s.busy = false) : resetLength s = 0 :=
  if_neg (by simp [h])

theorem resetLength_of_command {s : State} {i : Instr} (hbusy : s.busy = true) (hcmd : decodeWord s.lat.cmd = .ok i) :
    resetLength s = interruptedLength i s := by
  rw [resetLength, if_pos hbusy, hcmd]

theorem resetLength_of_illegal {s : State} {e : DecodeError} (hcmd : decodeWord s.lat.cmd = .error e) :
    resetLength s = 0 := by
  rw [resetLength, hcmd, ite_self]

/-- Bytes are left open only by an ENCODE or a DECODE in flight, as many as its passed checks computed
(70_reset R192). -/
theorem checks_of_resetLength_ne_zero {s : State} (h : resetLength s ≠ 0) :
    encodeChecks s.lat = .ok (resetLength s) ∨ decodeChecks (sourceByte s s.draws) s.lat = .ok (resetLength s) := by
  cases hbusy : s.busy with
  | false => exact absurd (resetLength_of_idle hbusy) h
  | true =>
    cases hcmd : decodeWord s.lat.cmd with
    | error e => exact absurd (resetLength_of_illegal hcmd) h
    | ok i =>
      rw [resetLength_of_command hbusy hcmd] at h ⊢
      cases i
      case encode => exact .inl (eq_ok_of_lengthOrNone_ne_zero h)
      case decode => exact .inr (eq_ok_of_lengthOrNone_ne_zero h)
      all_goals exact absurd rfl h

/-- What a command in flight may have begun to write lies inside the address space. -/
theorem dstAddr_add_resetLength_le (s : State) : s.lat.dstAddr.toNat + resetLength s ≤ 2 ^ 32 := by
  rcases eq_or_ne (resetLength s) 0 with hzero | hne
  · rw [hzero]
    exact s.lat.dstAddr.isLt.le
  · rcases checks_of_resetLength_ne_zero hne with hchecks | hchecks
    · obtain ⟨hready, hlen⟩ := encodeChecks_ok_iff.1 hchecks
      exact hlen ▸ hready.destFits
    · obtain ⟨-, hready⟩ := decodeChecks_ok_iff.1 hchecks
      exact hready.destFits

/-- Reset takes every register to its reset value, so only the memory's form is to show. -/
theorem inv_resetBlock {s : State} (hs : Inv s) : Inv (resetBlock s) where
  memory := memWriteRange_wf _ hs.memory (dstAddr_add_resetLength_le s)
  exclusive := by simp [resetBlock, State.reset]
  busyFlags := by simp [resetBlock, State.reset]
  busyCleared := by simp [resetBlock, State.reset]
  codeKnown := by simp [resetBlock, State.reset]
  doneNoCode := by simp [resetBlock, State.reset]
  errHasCode := by simp [resetBlock, State.reset]
  codeNoResult := by simp [resetBlock, State.reset]
  guarded := by simp [resetBlock, State.reset]

/-! ### What an event does -/

/-- The states an event of the interleaving can lead to, when it does not stop. -/
inductive EventEffect (s : State) : Event → State → Prop where
  | readOutside (addr bytes : Nat) : EventEffect s (.regRead addr bytes) s
  | readRegister (addr bytes : Nat) (r : Reg) : EventEffect s (.regRead addr bytes) (hostReadReg r s)
  | writeOutside (addr bytes : Nat) (v : Word) : EventEffect s (.regWrite addr bytes v) s
  | writeRegister (addr bytes : Nat) (v : Word) (r : Reg) : EventEffect s (.regWrite addr bytes v) (regWrite r v s)
  | load (a : Addr) (h : loadHazard s a.toNat = false) : EventEffect s (.memRead a)
      { spendDraws s with host := { s.host with byte := memRead s.mem s.draws a.toNat } }
  | store (a : Addr) (v : Byte) (h : storeHazard s a.toNat = false) :
      EventEffect s (.memWrite a v) { s with mem := memWrite s.mem a.toNat v }
  | irqSample : EventEffect s .irqSample (hostIrqSample s)
  | codec {t : State} (h : codecTurn s = .next t) : EventEffect s .codec t
  | reset : EventEffect s .reset (resetBlock s)

theorem eventEffect_of_runEvent {e : Event} {s t : State} (h : runEvent e s = .next t) : EventEffect s e t := by
  cases e with
  | regRead addr bytes =>
    simp only [runEvent, hostRegRead] at h
    split at h
    · cases h
      exact .readOutside addr bytes
    · cases h
    · cases h
    · cases h
      exact .readRegister addr bytes _
  | regWrite addr bytes v =>
    simp only [runEvent, hostRegWrite] at h
    split at h
    · cases h
      exact .writeOutside addr bytes v
    · cases h
    · cases h
    · cases h
      exact .writeRegister addr bytes v _
  | memRead a =>
    simp only [runEvent, hostLoad] at h
    split at h
    · cases h
    · cases h
      exact .load a (Bool.eq_false_iff.2 ‹_›)
  | memWrite a v =>
    simp only [runEvent, hostStore] at h
    split at h
    · cases h
    · cases h
      exact .store a v (Bool.eq_false_iff.2 ‹_›)
  | irqSample =>
    cases h
    exact .irqSample
  | codec => exact .codec h
  | reset =>
    cases h
    exact .reset

/-- A step is CODEC's turn at the end of the interleaving, or the effect of the next event, spent. -/
theorem step_next_cases {s t : State} (h : step s = .next t) :
    (s.sched = [] ∧ codecTurn s = .next t) ∨
      ∃ e rest, s.sched = e :: rest ∧ EventEffect { s with sched := rest } e t := by
  cases hsched : s.sched with
  | nil =>
    rw [step, runNext, hsched] at h
    exact .inl ⟨rfl, h⟩
  | cons e rest => exact .inr ⟨e, rest, rfl, eventEffect_of_runEvent ((step_of_event hsched).symm.trans h)⟩

theorem EventEffect.keeps_inv {s t : State} {e : Event} (h : EventEffect s e t) (hs : Inv s) : Inv t := by
  cases h with
  | readOutside | writeOutside => exact hs
  | readRegister _ _ r => exact inv_hostReadReg r hs
  | writeRegister _ _ v r => exact inv_regWrite r v hs
  | load => exact { hs with }
  | store a v => exact { hs with memory := memWrite_wf v hs.memory a.isLt }
  | irqSample => exact inv_hostIrqSample hs
  | codec h => exact codecTurn_keeps_inv h hs
  | reset => exact inv_resetBlock hs

/-- Settles O57: CODEC's turn keeps the invariant, and so does the effect of every event. -/
theorem stepKeepsInvariant : Obligations.StepKeepsInvariant := by
  intro s t hs h
  rcases step_next_cases h with ⟨-, hcodec⟩ | ⟨e, rest, -, heffect⟩
  · exact codecTurn_keeps_inv hcodec hs
  · exact heffect.keeps_inv { hs with }

end Sys2Proof.Machine
end

section
/-! CODEC's turn and the ends of a run: the completion step, when a step stops, and that a run out of events is idle
(10_state R29, R32, 30_encoding R64, 60_exceptions R169, R176, 70_reset R195). -/

namespace Sys2Proof.Machine

open Sys2Proof.Safety

/-! ### CODEC's turn -/

theorem codecTurn_of_busy {s : State} (h : s.busy = true) : codecTurn s = complete s := if_pos h

theorem codecTurn_of_idle {s : State} (h : s.busy = false) : codecTurn s = .next s := if_neg (by simp [h])

theorem complete_of_command {s : State} {i : Instr} (h : decodeWord s.lat.cmd = .ok i) : complete s = exec i s := by
  rw [complete, h]

theorem complete_of_illegal {s : State} {e : DecodeError} (h : decodeWord s.lat.cmd = .error e) :
    complete s = .next (raiseError { code := .illegalCommand, pos := 0 } s) := by
  rw [complete, h]

/-- Settles O36: CODEC's turn with a command in flight is its completion step, which is the decoded command's
meaning. -/
theorem stepRunsDecoded : Obligations.StepRunsDecoded := by
  intro s i hbusy hnext hcmd
  calc step s = codecTurn { s with sched := s.sched.tail } := step_of_codecNext hnext
    _ = complete { s with sched := s.sched.tail } := codecTurn_of_busy hbusy
    _ = exec i { s with sched := s.sched.tail } := complete_of_command hcmd

/-- Settles O37: the completion step of a word that does not decode raises `ILLEGAL_COMMAND(0)`. -/
theorem illegalCommandCompletes : Obligations.IllegalCommandCompletes := by
  intro s e hbusy hnext hcmd
  calc step s = codecTurn { s with sched := s.sched.tail } := step_of_codecNext hnext
    _ = complete { s with sched := s.sched.tail } := codecTurn_of_busy hbusy
    _ = .next (raiseError { code := .illegalCommand, pos := 0 } { s with sched := s.sched.tail }) :=
      complete_of_illegal hcmd

/-- Settles O38: an idle CODEC's turn is empty. -/
theorem idleCodecTurn : Obligations.IdleCodecTurn := fun _ hidle hnext =>
  (step_of_codecNext hnext).trans (codecTurn_of_idle hidle)

/-- CODEC's turn never stops, leaves the block idle, and lays down no event. -/
theorem codecTurn_ends_idle (s : State) : ∃ t, codecTurn s = .next t ∧ t.busy = false ∧ t.sched = s.sched := by
  cases hbusy : s.busy with
  | false => exact ⟨s, codecTurn_of_idle hbusy, hbusy, rfl⟩
  | true =>
    rw [codecTurn_of_busy hbusy]
    cases hcmd : decodeWord s.lat.cmd with
    | error e => exact ⟨_, complete_of_illegal hcmd, rfl, rfl⟩
    | ok i =>
      rw [complete_of_command hcmd]
      obtain ⟨f, d, h⟩ | ⟨n, d, mem, lo, hi, glo, ghi, h⟩ := exec_ends i s
      · exact ⟨_, h, rfl, rfl⟩
      · exact ⟨_, h, rfl, rfl⟩

/-! ### A run shortens the interleaving -/

theorem observeCompletion_sched (s : State) : (observeCompletion s).sched = s.sched := by
  rw [observeCompletion_eq]

theorem hostReadReg_sched (r : Reg) (s : State) : (hostReadReg r s).sched = s.sched := by
  cases r
  case status => exact observeCompletion_sched _
  all_goals rfl

theorem issueCommand_sched (w : Word) (s : State) : (issueCommand w s).sched = s.sched := by
  unfold issueCommand
  split <;> rfl

theorem regWrite_sched (r : Reg) (v : Word) (s : State) : (regWrite r v s).sched = s.sched := by
  cases r
  case cmd => exact issueCommand_sched v s
  all_goals rfl

theorem EventEffect.sched_eq {s t : State} {e : Event} (h : EventEffect s e t) : t.sched = s.sched := by
  cases h with
  | readOutside | writeOutside | load | store | reset => rfl
  | readRegister _ _ r => exact hostReadReg_sched r s
  | writeRegister _ _ v r => exact regWrite_sched r v s
  | irqSample => rw [hostIrqSample_eq]
  | codec h =>
    obtain ⟨t', ht', -, hsched⟩ := codecTurn_ends_idle s
    cases ht'.symm.trans h
    exact hsched

theorem step_sched {s t : State} (h : step s = .next t) : t.sched = s.sched.tail := by
  rcases step_next_cases h with ⟨hnil, hcodec⟩ | ⟨e, rest, hcons, heffect⟩
  · obtain ⟨t', ht', -, hsched⟩ := codecTurn_ends_idle s
    cases ht'.symm.trans hcodec
    rw [hsched, hnil, List.tail_nil]
  · rw [heffect.sched_eq, hcons, List.tail_cons]

theorem run_succ_eq_next_iff {k : Nat} {s t : State} :
    Host.Core.run Sys2Proof.core (k + 1) s = .next t ↔
      ∃ s', step s = .next s' ∧ Host.Core.run Sys2Proof.core k s' = .next t := by
  rw [run_succ]
  cases step s with
  | next s' => simp
  | fault r => simp
  | refused r => simp

/-- Settles O53, by induction on the interleaving: each step spends one event, and the step at its end is CODEC's
turn. -/
theorem completionAfterFinitelyManySteps : Obligations.CompletionAfterFinitelyManySteps := by
  intro s t h
  generalize hevents : s.sched = events at h
  induction events generalizing s with
  | nil =>
    obtain ⟨s', hstep, hrun⟩ := run_succ_eq_next_iff.1 h
    cases (run_zero s').symm.trans hrun
    rcases step_next_cases hstep with ⟨-, hcodec⟩ | ⟨e, rest, hcons, -⟩
    · obtain ⟨t', ht', hidle, hsched⟩ := codecTurn_ends_idle s
      cases ht'.symm.trans hcodec
      exact ⟨hidle, hsched.trans hevents⟩
    · cases hevents.symm.trans hcons
  | cons e rest ih =>
    obtain ⟨s', hstep, hrun⟩ := run_succ_eq_next_iff.1 h
    exact ih s' (by rw [step_sched hstep, hevents, List.tail_cons]) hrun

/-! ### When a step stops -/

/-- What stops an event: the buffer hazard for a load or store, a form of access for a register read or write. -/
theorem runEvent_stops (e : Event) (s : State) :
    (∃ t, runEvent e s = .next t) ∨
    (runEvent e s = .fault .hazardBuffer ∧ ∃ a v, e = .memRead a ∨ e = .memWrite a v) ∨
    (∃ r, runEvent e s = .refused r ∧ (r = .registerWidth ∨ r = .registerAlignment) ∧
      ∃ a n v, e = .regRead a n ∨ e = .regWrite a n v) := by
  cases e with
  | regRead addr bytes =>
    simp only [runEvent, hostRegRead]
    split
    · exact .inl ⟨_, rfl⟩
    · exact .inr (.inr ⟨_, rfl, .inl rfl, addr, bytes, 0, .inl rfl⟩)
    · exact .inr (.inr ⟨_, rfl, .inr rfl, addr, bytes, 0, .inl rfl⟩)
    · exact .inl ⟨_, rfl⟩
  | regWrite addr bytes v =>
    simp only [runEvent, hostRegWrite]
    split
    · exact .inl ⟨_, rfl⟩
    · exact .inr (.inr ⟨_, rfl, .inl rfl, addr, bytes, v, .inr rfl⟩)
    · exact .inr (.inr ⟨_, rfl, .inr rfl, addr, bytes, v, .inr rfl⟩)
    · exact .inl ⟨_, rfl⟩
  | memRead a =>
    simp only [runEvent, hostLoad]
    split
    · exact .inr (.inl ⟨rfl, a, 0, .inl rfl⟩)
    · exact .inl ⟨_, rfl⟩
  | memWrite a v =>
    simp only [runEvent, hostStore]
    split
    · exact .inr (.inl ⟨rfl, a, v, .inr rfl⟩)
    · exact .inl ⟨_, rfl⟩
  | irqSample => exact .inl ⟨_, rfl⟩
  | codec =>
    obtain ⟨t, ht, -⟩ := codecTurn_ends_idle s
    exact .inl ⟨t, ht⟩
  | reset => exact .inl ⟨_, rfl⟩

theorem step_of_nil {s : State} (h : s.sched = []) : step s = codecTurn s := by
  rw [step, runNext, h]

/-- Settles O54: CODEC's turn does not stop, and each event stops only as `runEvent_stops` says. -/
theorem onlyHostAccessesStop : Obligations.OnlyHostAccessesStop := by
  intro s
  cases hsched : s.sched with
  | nil =>
    obtain ⟨t, ht, -⟩ := codecTurn_ends_idle s
    have hstep : step s = .next t := (step_of_nil hsched).trans ht
    simp [hstep]
  | cons e rest =>
    have hstep := step_of_event hsched
    obtain ⟨t, ht⟩ | ⟨hf, a, v, he⟩ | ⟨r, hr, hname, a, n, v, he⟩ := runEvent_stops e { s with sched := rest }
    · simp [hstep.trans ht]
    · refine ⟨fun f hfault => ?_, fun r hrefused => ?_⟩
      · cases (hstep.trans hf).symm.trans hfault
        exact ⟨rfl, a, v, rest, by simpa using he⟩
      · cases (hstep.trans hf).symm.trans hrefused
    · refine ⟨fun f hfault => ?_, fun r' hrefused => ?_⟩
      · cases (hstep.trans hr).symm.trans hfault
      · cases (hstep.trans hr).symm.trans hrefused
        exact ⟨hname, a, n, v, rest, by simpa using he⟩

theorem hostRegRead_register {off : Nat} (s : State) (h : off < 64) (h4 : off % 4 = 0) :
    hostRegRead (Config.regBase + off) 4 s = .next (hostReadReg (regAtOffset off) s) := by
  unfold hostRegRead
  rw [regTarget_register h h4]

theorem runEvent_of_registerOnly {e : Event} (h : RegisterOnly e) (s : State) : ∃ t, runEvent e s = .next t := by
  cases e with
  | regRead addr bytes =>
    obtain ⟨rfl, off, hoff, halign, rfl⟩ := h
    exact ⟨_, hostRegRead_register s hoff halign⟩
  | regWrite addr bytes v =>
    obtain ⟨rfl, off, hoff, halign, rfl⟩ := h
    exact ⟨_, hostRegWrite_register v s hoff halign⟩
  | memRead a => exact h.elim
  | memWrite a v => exact h.elim
  | irqSample => exact ⟨_, rfl⟩
  | codec =>
    obtain ⟨t, ht, -⟩ := codecTurn_ends_idle s
    exact ⟨t, ht⟩
  | reset => exact ⟨_, rfl⟩

theorem step_of_registerOnly {s : State} (h : ∀ e ∈ s.sched, RegisterOnly e) : ∃ t, step s = .next t := by
  cases hsched : s.sched with
  | nil =>
    obtain ⟨t, ht, -⟩ := codecTurn_ends_idle s
    exact ⟨t, (step_of_nil hsched).trans ht⟩
  | cons e rest =>
    rw [step_of_event hsched]
    exact runEvent_of_registerOnly (h e (hsched ▸ List.mem_cons_self)) _

/-- Settles O55, by induction on the run: a step of such an interleaving does not stop, and leaves such a one. -/
theorem registerAccessesNeverStop : Obligations.RegisterAccessesNeverStop := by
  intro s h k
  induction k generalizing s with
  | zero => exact ⟨s, run_zero s⟩
  | succ k ih =>
    obtain ⟨s', hstep⟩ := step_of_registerOnly h
    obtain ⟨t, hrun⟩ := ih s' fun e he => h e (List.mem_of_mem_tail (step_sched hstep ▸ he))
    exact ⟨t, run_succ_eq_next_iff.2 ⟨s', hstep, hrun⟩⟩

end Sys2Proof.Machine
end

section
/-! The register window: acceptance of a command, what each register reads as and what a write does to it, and the
accesses the block refuses (10_state R12 to R31, 60_exceptions R167). -/

namespace Sys2Proof.Machine

theorem issueCommand_of_idle {s : State} (w : Word) (h : s.busy = false) : issueCommand w s = acceptCommand w s :=
  if_neg (by simp [h])

/-- Settles O39: the step is a write to `CMD`, which an idle block accepts. -/
theorem cmdWriteAccepted : Obligations.CmdWriteAccepted := by
  intro s w rest hs hidle
  refine ⟨latchOperands w s, latchOperands w s :: s.unobserved, ?accepted, List.mem_cons_self,
    List.subset_cons_self _ _, rfl, rfl, rfl, rfl, rfl, rfl, rfl⟩
  case accepted =>
    calc step s = .next (issueCommand w { s with sched := rest }) := step_of_regWrite (by decide) (by decide) hs
      _ = .next (acceptCommand w { s with sched := rest }) :=
        congrArg Host.Outcome.next (issueCommand_of_idle w hidle)

/-! ### Reads -/

/-- A read hands the value to the host; one of `STATUS` with `BUSY = 0` also ends the hazard (20_memory R51). -/
theorem hostReadReg_eq (r : Reg) (s : State) :
    hostReadReg r s = { s with
      host := { s.host with word := regRead r s }
      unobserved := if r = .status ∧ s.busy = false then [] else s.unobserved } := by
  cases r
  case status =>
    rw [hostReadReg, observeCompletion_eq]
    cases s.busy <;> rfl
  all_goals rfl

theorem step_of_regRead {s : State} {off : Nat} {rest : List Event} (h : off < 64) (h4 : off % 4 = 0)
    (hs : s.sched = .regRead (Config.regBase + off) 4 :: rest) :
    step s = .next { s with
      sched := rest
      host := { s.host with word := regRead (regAtOffset off) { s with sched := rest } }
      unobserved := if regAtOffset off = .status ∧ s.busy = false then [] else s.unobserved } :=
  calc step s = .next (hostReadReg (regAtOffset off) { s with sched := rest }) :=
        (step_of_event hs).trans (hostRegRead_register _ h h4)
    _ = _ := congrArg Host.Outcome.next (hostReadReg_eq _ _)

theorem regAtOffset_eq_status_iff {off : Nat} : regAtOffset off = .status ↔ off = 0x08 := by
  unfold regAtOffset
  split <;> simp_all

/-- The flags stand in bits 3 to 0 of `STATUS` (10_state R15). -/
theorem statusWord_bits (s : State) :
    (statusWord s).getLsbD 0 = s.busy ∧ (statusWord s).getLsbD 1 = s.done ∧ (statusWord s).getLsbD 2 = s.err ∧
      (statusWord s).getLsbD 3 = s.ovr ∧ (statusWord s).toNat < 16 := by
  unfold statusWord
  cases s.busy <;> cases s.done <;> cases s.err <;> cases s.ovr <;> decide

/-- `CTRL` has `IRQ_EN` in bit 0 and no other bit (10_state R14). -/
theorem ctrlWord_bit (s : State) (b : Nat) : (ctrlWord s).getLsbD b = (decide (b = 0) && s.irqEn) := by
  calc (ctrlWord s).getLsbD b
      = if b < 1 then (BitVec.ofBool s.irqEn).getLsbD b else (0 : BitVec 31).getLsbD (b - 1) := BitVec.getLsbD_append
    _ = (decide (b = 0) && s.irqEn) := by cases b <;> simp

theorem toNat_zero_append (n : Nat) {w : Nat} (x : BitVec w) : ((0 : BitVec n) ++ x).toNat = x.toNat := by
  simp [BitVec.toNat_append]

/-- Settles O41: the value read is `regRead` of the offset's register, row by row of the map. -/
theorem registerReadMap : Obligations.RegisterReadMap := by
  intro s off rest hoff halign hs
  refine ⟨_, _, step_of_regRead hoff halign hs, fun hne => if_neg fun h => hne (regAtOffset_eq_status_iff.1 h.1),
    ?_, ?ctrl, ?status, ?_, ?_, ?_, ?_, ?_, ?_, ?errCode, ?_, ?_, ?grpHi, ?_, ?_, ?_⟩
  case ctrl =>
    rintro rfl
    exact ctrlWord_bit _
  case status =>
    rintro rfl
    exact statusWord_bits _
  case errCode =>
    rintro rfl
    exact toNat_zero_append 28 s.errCode
  case grpHi =>
    rintro rfl
    exact toNat_zero_append 24 s.grpHi
  all_goals
    rintro rfl
    rfl

/-! ### Writes -/

/-- Settles O42: the step is the write of the offset's register, row by row of the map. -/
theorem registerWriteMap : Obligations.RegisterWriteMap := by
  intro s v rest off hoff halign hs
  have hstep := step_of_regWrite hoff halign hs
  refine ⟨fun hmem => ?readOnly, ?_, ?_, ?_, ?_, ?_, ?_, ?_, ?grpHi, ?_, ?_⟩
  case readOnly =>
    simp only [List.mem_cons, List.not_mem_nil, or_false] at hmem
    obtain rfl | rfl | rfl | rfl | rfl := hmem <;> exact hstep
  case grpHi =>
    rintro rfl
    rw [BitVec.setWidth_eq_extractLsb' (by decide)]
    exact hstep
  all_goals
    rintro rfl
    exact hstep

/-! ### Refused accesses -/

/-- An access that reaches no byte of the window does nothing (10_state R28). -/
theorem runEvent_of_outside {e : Event} {addr bytes : Nat} {v : Word}
    (he : e = .regRead addr bytes ∨ e = .regWrite addr bytes v)
    (ht : regTarget Config.regBase addr bytes = .outside) (s : State) : runEvent e s = .next s := by
  rcases he with rfl | rfl
  · rw [runEvent, hostRegRead, ht]
  · rw [runEvent, hostRegWrite, ht]

/-- An access to the window of another width is refused by that name (10_state R29). -/
theorem runEvent_of_wrongWidth {e : Event} {addr bytes : Nat} {v : Word}
    (he : e = .regRead addr bytes ∨ e = .regWrite addr bytes v)
    (ht : regTarget Config.regBase addr bytes = .wrongWidth) (s : State) : runEvent e s = .refused .registerWidth := by
  rcases he with rfl | rfl
  · rw [runEvent, hostRegRead, ht]
  · rw [runEvent, hostRegWrite, ht]

/-- A 32-bit access to the window off a multiple of 4 is refused by that name (10_state R29). -/
theorem runEvent_of_unaligned {e : Event} {addr bytes : Nat} {v : Word}
    (he : e = .regRead addr bytes ∨ e = .regWrite addr bytes v)
    (ht : regTarget Config.regBase addr bytes = .unaligned) (s : State) :
    runEvent e s = .refused .registerAlignment := by
  rcases he with rfl | rfl
  · rw [runEvent, hostRegRead, ht]
  · rw [runEvent, hostRegWrite, ht]

/-- Settles O43: the three forms are the first three answers of `regTarget`, for a read and a write alike. -/
theorem registerAccessForms : Obligations.RegisterAccessForms := by
  intro s addr bytes v rest e he hs
  rw [step_of_event hs]
  refine ⟨fun hout => runEvent_of_outside he ?_ _, fun hlo hhi hwidth => runEvent_of_wrongWidth he ?_ _,
    fun hlo hhi hwidth halign => runEvent_of_unaligned he ?_ _⟩
  · exact if_pos hout
  · rw [regTarget, if_neg (by omega), if_pos hwidth]
  · rw [regTarget, if_neg (by omega), if_neg (by omega), if_pos halign]

/-! ### Observation and reset values -/

/-- Settles O49: the two observations, each with what it does to the record. -/
theorem completionObserved : Obligations.CompletionObserved := by
  intro s rest
  refine ⟨fun hs => ?status, fun hs => step_of_irqSample hs⟩
  case status =>
    obtain ⟨hbusy, -⟩ := statusWord_bits s
    refine ⟨statusWord s, ?_, hbusy⟩
    calc step s = .next (hostReadReg .status { s with sched := rest }) :=
          (step_of_event hs).trans (hostRegRead_register (off := 0x08) _ (by decide) (by decide))
      _ = _ := congrArg Host.Outcome.next (observeCompletion_eq _)

/-- Settles O50: each register's reset value, and the empty memory, by evaluation. -/
theorem resetValues : Obligations.ResetValues :=
  ⟨rfl, rfl, rfl, rfl, rfl, rfl, rfl, rfl, rfl, rfl, rfl, rfl, rfl, rfl, rfl, fun _ => rfl⟩

/-- Reset writes memory only in the destination a command in flight may have begun to write (70_reset R192). -/
theorem memFind_resetBlock_outside {s : State} {a : Nat}
    (ha : a < s.lat.dstAddr.toNat ∨ s.lat.dstAddr.toNat + resetLength s ≤ a) :
    memFind (resetBlock s).mem a = memFind s.mem a :=
  memFind_memWriteRange_outside _ _ ha

theorem resetBlock_mem_of_resetLength_zero {s : State} (h : resetLength s = 0) : (resetBlock s).mem = s.mem := by
  rw [resetBlock, h]
  rfl

theorem interruptedLength_of_no_writer {i : Instr} (s : State) (he : i ≠ .encode) (hd : i ≠ .decode) :
    interruptedLength i s = 0 := by
  cases i
  case encode => exact absurd rfl he
  case decode => exact absurd rfl hd
  all_goals rfl

/-- Nothing is left open where no ENCODE or DECODE is in flight (70_reset R192). -/
theorem resetLength_of_no_writer {s : State} (h : s.busy = false ∨ (s.lat.cmd ≠ 0x2 ∧ s.lat.cmd ≠ 0x3)) :
    resetLength s = 0 := by
  cases hbusy : s.busy with
  | false => exact resetLength_of_idle hbusy
  | true =>
    obtain ⟨he, hd⟩ := h.resolve_left (by simp [hbusy])
    cases hcmd : decodeWord s.lat.cmd with
    | error e => exact resetLength_of_illegal hcmd
    | ok i =>
      have hword := (decodeWord_eq_ok_iff _ _).1 hcmd
      rw [resetLength_of_command hbusy hcmd]
      refine interruptedLength_of_no_writer s ?_ ?_
      · rintro rfl
        exact he hword
      · rintro rfl
        exact hd hword

/-- Settles O51: the step is `resetBlock`, which writes no byte where no ENCODE or DECODE is in flight. -/
theorem resetStep : Obligations.ResetStep := by
  intro s rest hs
  refine ⟨_, _, step_of_event hs, fun hidle => ?_⟩
  exact resetBlock_mem_of_resetLength_zero (s := { s with sched := rest }) (resetLength_of_no_writer hidle)

end Sys2Proof.Machine
end

section
/-! The buffer hazard: the regions a command guards, the host accesses that fault in them, and that no step but
completion and reset changes the regions of the command in flight (20_memory R46, R51, R53, 70_reset R195). -/

namespace Sys2Proof.Machine

open Sys2Proof.Safety

/-! ### The guarded regions -/

/-- The commands with a source region are those of three words (30_encoding R61). -/
theorem sourceLengthOf_eq (i : Instr) (l : Latched) :
    sourceLengthOf i l =
      if encodeInstr i = 0x2 ∨ encodeInstr i = 0x3 ∨ encodeInstr i = 0x4 then l.srcLen.toNat else 0 := by
  cases i <;> rfl

/-- The commands with a destination region are those of two words (30_encoding R61). -/
theorem destCapacityOf_eq (i : Instr) (l : Latched) :
    destCapacityOf i l = if encodeInstr i = 0x2 ∨ encodeInstr i = 0x3 then l.dstCap.toNat else 0 := by
  cases i <;> rfl

theorem inRange_ite_iff {p : Prop} [Decidable p] {base n a : Nat} :
    inRange base (if p then n else 0) a = true ↔ p ∧ base ≤ a ∧ a < base + n := by
  rw [inRange_iff]
  split
  next hp => exact (and_iff_right hp).symm
  next hp => exact iff_of_false (by omega) fun h => hp h.1

/-- An illegal word is no command's. -/
theorem ne_encodeInstr_of_illegal {w : Word} {e : DecodeError} (h : decodeWord w = .error e) (i : Instr) :
    w ≠ encodeInstr i := by
  rintro rfl
  cases (decodeWord_encodeInstr i).symm.trans h

theorem inSource_iff {l : Latched} {a : Nat} :
    inSource l a = true ↔ (l.cmd = 0x2 ∨ l.cmd = 0x3 ∨ l.cmd = 0x4) ∧ l.srcAddr.toNat ≤ a ∧
      a < l.srcAddr.toNat + l.srcLen.toNat := by
  unfold inSource
  split
  next i hcmd =>
    rw [sourceLengthOf_eq, ← (decodeWord_eq_ok_iff _ _).1 hcmd]
    exact inRange_ite_iff
  next e hcmd =>
    refine iff_of_false (by decide) fun ⟨hword, _⟩ => ?_
    rcases hword with hword | hword | hword
    · exact ne_encodeInstr_of_illegal hcmd .encode hword
    · exact ne_encodeInstr_of_illegal hcmd .decode hword
    · exact ne_encodeInstr_of_illegal hcmd .declen hword

theorem inDest_iff {l : Latched} {a : Nat} :
    inDest l a = true ↔ (l.cmd = 0x2 ∨ l.cmd = 0x3) ∧ l.dstAddr.toNat ≤ a ∧ a < l.dstAddr.toNat + l.dstCap.toNat := by
  unfold inDest
  split
  next i hcmd =>
    rw [destCapacityOf_eq, ← (decodeWord_eq_ok_iff _ _).1 hcmd]
    exact inRange_ite_iff
  next e hcmd =>
    refine iff_of_false (by decide) fun ⟨hword, _⟩ => ?_
    rcases hword with hword | hword
    · exact ne_encodeInstr_of_illegal hcmd .encode hword
    · exact ne_encodeInstr_of_illegal hcmd .decode hword

/-- Settles O47: both regions, by the words of the commands that have them. -/
theorem guardedRegions : Obligations.GuardedRegions := fun _ _ => ⟨inSource_iff, inDest_iff⟩

/-! ### Host accesses and the hazard -/

theorem storeHazard_iff {s : State} {a : Nat} :
    storeHazard s a = true ↔ ∃ l ∈ s.unobserved, inSource l a = true ∨ inDest l a = true := by
  simp [storeHazard]

theorem loadHazard_iff {s : State} {a : Nat} : loadHazard s a = true ↔ ∃ l ∈ s.unobserved, inDest l a = true := by
  simp [loadHazard]

theorem step_of_hazardous_store {s : State} {a : Addr} {v : Byte} {rest : List Event}
    (hs : s.sched = .memWrite a v :: rest) (h : storeHazard s a.toNat = true) : step s = .fault .hazardBuffer :=
  (step_of_event hs).trans (if_pos h)

theorem step_of_hazardous_load {s : State} {a : Addr} {rest : List Event} (hs : s.sched = .memRead a :: rest)
    (h : loadHazard s a.toNat = true) : step s = .fault .hazardBuffer :=
  (step_of_event hs).trans (if_pos h)

/-- Settles O45: an address of a guarded region of a recorded command is a hazard. -/
theorem bufferHazardFaults : Obligations.BufferHazardFaults := by
  intro s l a v rest hl
  refine ⟨fun hcmd hlo hhi hs => ?source, fun hcmd hlo hhi hs => ?dest⟩
  case source => exact step_of_hazardous_store hs (storeHazard_iff.2 ⟨l, hl, .inl (inSource_iff.2 ⟨hcmd, hlo, hhi⟩)⟩)
  case dest =>
    have hdest := inDest_iff.2 ⟨hcmd, hlo, hhi⟩
    rcases hs with hs | hs
    · exact step_of_hazardous_store hs (storeHazard_iff.2 ⟨l, hl, .inr hdest⟩)
    · exact step_of_hazardous_load hs (loadHazard_iff.2 ⟨l, hl, hdest⟩)

/-- Settles O46: without a hazard the store is a memory write and the load a memory read. -/
theorem hostAccessOutsideRegions : Obligations.HostAccessOutsideRegions := by
  intro s a rest
  refine ⟨fun v hs hfree => ?store, fun hs hfree => ?load⟩
  case store =>
    have hsafe : ¬ storeHazard s a.toNat = true := by
      rw [storeHazard_iff]
      rintro ⟨l, hl, hin⟩
      simp [hfree l hl] at hin
    exact ⟨_, (step_of_event hs).trans (if_neg hsafe), memFind_memWrite_same _ _ _,
      fun b hb => memFind_memWrite_ne _ v hb⟩
  case load =>
    have hsafe : ¬ loadHazard s a.toNat = true := by
      rw [loadHazard_iff]
      rintro ⟨l, hl, hin⟩
      simp [hfree l hl] at hin
    exact ⟨_, _, (step_of_event hs).trans (if_neg hsafe), fun b hb => memRead_of_find _ hb⟩

/-! ### The command in flight -/

/-- While a command is in flight a register write leaves it, its latched values and the memory (10_state R33, R35). -/
theorem regWrite_of_busy (r : Reg) (v : Word) {s : State} (h : s.busy = true) :
    (regWrite r v s).busy = true ∧ (regWrite r v s).lat = s.lat ∧ (regWrite r v s).mem = s.mem := by
  cases r
  case cmd =>
    rw [regWrite, issueCommand_of_busy v h]
    exact ⟨h, rfl, rfl⟩
  all_goals exact ⟨h, rfl, rfl⟩

/-- A host event with a command in flight leaves the command, its latched values, and every byte but one it stores
without a hazard. -/
theorem EventEffect.of_busy {s t : State} {e : Event} (h : EventEffect s e t) (hbusy : s.busy = true)
    (hcodec : e ≠ .codec) (hreset : e ≠ .reset) :
    t.busy = true ∧ t.lat = s.lat ∧
      (t.mem = s.mem ∨ ∃ b v, storeHazard s b = false ∧ t.mem = memWrite s.mem b v) := by
  cases h with
  | readOutside | writeOutside | load => exact ⟨hbusy, rfl, .inl rfl⟩
  | readRegister _ _ r =>
    rw [hostReadReg_eq]
    exact ⟨hbusy, rfl, .inl rfl⟩
  | writeRegister _ _ v r =>
    obtain ⟨hb, hlat, hmem⟩ := regWrite_of_busy r v hbusy
    exact ⟨hb, hlat, .inl hmem⟩
  | store a v hsafe => exact ⟨hbusy, rfl, .inr ⟨a.toNat, v, hsafe, rfl⟩⟩
  | irqSample =>
    rw [hostIrqSample_eq]
    exact ⟨hbusy, rfl, .inl rfl⟩
  | codec => exact absurd rfl hcodec
  | reset => exact absurd rfl hreset

/-- Settles O48: the invariant has the command in flight in the record, so a store without a hazard is outside its
regions. -/
theorem hostCannotTouchRunningRegions : Obligations.HostCannotTouchRunningRegions := by
  intro s t a hinv hbusy hturn hnoreset hstep hin
  rcases step_next_cases hstep with ⟨hnil, -⟩ | ⟨e, rest, hcons, heffect⟩
  · exact absurd (.inl hnil) hturn
  · have hcodec : e ≠ .codec := by
      rintro rfl
      exact hturn (.inr ⟨rest, hcons⟩)
    have hreset : e ≠ .reset := by
      rintro rfl
      exact hnoreset rest hcons
    obtain ⟨hbusy', hlat, hmem⟩ := heffect.of_busy hbusy hcodec hreset
    refine ⟨hbusy', hlat, ?_⟩
    rcases hmem with hmem | ⟨b, v, hsafe, hmem⟩
    · rw [hmem]
    · have hne : a ≠ b := by
        rintro rfl
        exact Bool.eq_false_iff.1 hsafe (storeHazard_iff.2 ⟨s.lat, hinv.guarded hbusy, hin⟩)
      rw [hmem, memFind_memWrite_ne _ v hne]

end Sys2Proof.Machine
end

section
/-! Illegal words: the decoder's refusals, opcode and count by opcode and count, and as conditions on the bits of the
word (30_encoding R60, R64). -/

namespace Sys2Proof

/-- Settles O1: each word of the two tables, by evaluation of the decoder. -/
theorem tableWordsDecode : Obligations.TableWordsDecode := ⟨by decide, by decide⟩

/-- No row of the opcode map has this opcode and this count (30_encoding R61, R64). -/
theorem decodeOpcode_error_iff (o c : Nat) :
    (∃ e, decodeOpcode o c = .error e) ↔
      o = 0 ∨ 7 ≤ o ∨ (o ≠ 5 ∧ c ≠ 0) ∨ (o = 5 ∧ (c = 0 ∨ 6 ≤ c)) := by
  unfold decodeOpcode
  split
  case h_11 =>
    refine iff_of_true ?_ (by grind)
    split
    · exact ⟨_, rfl⟩
    · exact ⟨_, rfl⟩
  all_goals exact iff_of_false (by simp) (by omega)

theorem cmdFields_opc_toNat (w : Word) : (cmdFields w).opc.toNat = w.toNat % 16 := by
  simp [cmdFields]

theorem cmdFields_cnt_toNat (w : Word) : (cmdFields w).cnt.toNat = w.toNat / 16 % 8 := by
  simp [cmdFields, Nat.shiftRight_eq_div_pow]

theorem cmdFields_rsv_eq_zero_iff (w : Word) : (cmdFields w).rsv = 0 ↔ w.toNat / 2 ^ 7 = 0 := by
  have hw := w.isLt
  rw [← BitVec.toNat_inj]
  simp [cmdFields, Nat.shiftRight_eq_div_pow]
  omega

/-- Settles O3: the decoder refuses a word for its reserved bits, or else for its opcode and count. -/
theorem illegalWordsByField : Obligations.IllegalWordsByField := by
  intro w
  have hcount : w.toNat / 16 % 8 < 8 := Nat.mod_lt _ (by decide)
  unfold decodeWord
  split
  next hrsv =>
    rw [cmdFields_rsv_eq_zero_iff] at hrsv
    rw [decodeOpcode_error_iff, cmdFields_opc_toNat, cmdFields_cnt_toNat]
    omega
  next hrsv =>
    rw [cmdFields_rsv_eq_zero_iff] at hrsv
    exact iff_of_true ⟨_, rfl⟩ (.inl hrsv)

end Sys2Proof
end

section
/-! Symbols and validation: the classes of a byte, the shape of a symbol sequence that the scan passes, and what
`Validate` answers for it (40_datapath R80, R82, R90, 43_decode R153, R154, 60_exceptions R164). -/

namespace Sys2Proof.Machine

open Sys2Proof.Safety

/-! ### The alphabet -/

theorem ralpha_letter {c : Byte} (hlo : 0x41 ≤ c.toNat) (hhi : c.toNat ≤ 0x5A) :
    ralpha c = .sym (BitVec.ofNat 5 (c.toNat - 0x41)) := if_pos ⟨hlo, hhi⟩

theorem ralpha_digit {c : Byte} (hlo : 0x32 ≤ c.toNat) (hhi : c.toNat ≤ 0x37) :
    ralpha c = .sym (BitVec.ofNat 5 (c.toNat - 0x18)) := by
  rw [ralpha, if_neg (by omega), if_pos ⟨hlo, hhi⟩]

/-- Settles O5: the classes are the branches of the reverse table, and the alphabet undoes it. -/
theorem alphabetExact : Obligations.AlphabetExact := by
  intro c
  refine ⟨fun hlo hhi => ?letter, fun hlo hhi => ?digit, fun hpad => ralpha_eq_pad.2 hpad, fun hl hd hp => ?bad⟩
  case letter =>
    have hsym := ralpha_letter hlo hhi
    exact ⟨_, hsym, by rw [BitVec.toNat_ofNat]; omega, alpha_of_ralpha hsym⟩
  case digit =>
    have hsym := ralpha_digit hlo hhi
    exact ⟨_, hsym, by rw [BitVec.toNat_ofNat]; omega, alpha_of_ralpha hsym⟩
  case bad => rw [ralpha, if_neg hl, if_neg hd, if_neg (show ¬c = padByte from hp)]

/-! ### The shape that the scan passes -/

/-- The last `p` of `m` positions are pads, and every position before them is an alphabet symbol. -/
def SymbolsThenPads (sym : Nat → Byte) (m p : Nat) : Prop :=
  (∀ i, i < m - p → ∃ v, ralpha (sym i) = .sym v) ∧ ∀ i, m - p ≤ i → i < m → sym i = padByte

theorem ne_padByte_of_sym {c : Byte} (h : ∃ v, ralpha c = .sym v) : c ≠ padByte := by
  rintro rfl
  obtain ⟨v, hv⟩ := h
  cases ralpha_padByte.symm.trans hv

/-- Where no position before `i` is a pad, the positions the scan passes are alphabet symbols. -/
theorem ScanPasses.sym_of_ne_pad {sym : Nat → Byte} {m lo i : Nat} {seenPad : Bool}
    (h : ScanPasses sym m lo seenPad i) (hne : sym i ≠ padByte) : ∃ v, ralpha (sym i) = .sym v := by
  obtain ⟨hbad, -, -⟩ := h
  cases hc : ralpha (sym i) with
  | sym v => exact ⟨v, rfl⟩
  | pad => exact absurd (ralpha_eq_pad.1 hc) hne
  | bad => exact absurd hc hbad

/-- After a pad the scan passes pads only. -/
theorem ScanPasses.pad_of_pad_before {sym : Nat → Byte} {m lo i k : Nat} {seenPad : Bool}
    (h : ScanPasses sym m lo seenPad i) (hlo : lo ≤ k) (hk : k < i) (hpad : sym k = padByte) : sym i = padByte := by
  by_contra hne
  obtain ⟨v, hv⟩ := h.sym_of_ne_pad hne
  obtain ⟨-, -, hsym⟩ := h
  exact (hsym v hv).2 k hlo hk (ralpha_eq_pad.2 hpad)

/-- Symbols and then at most a block of pads are what the scan passes. -/
theorem scanPasses_of_symbolsThenPads {sym : Nat → Byte} {m p i : Nat} (h : SymbolsThenPads sym m p) (hp : p ≤ 8)
    (hi : i < m) : ScanPasses sym m 0 false i := by
  obtain ⟨hsyms, hpads⟩ := h
  rcases Nat.lt_or_ge i (m - p) with hlt | hge
  · obtain ⟨v, hv⟩ := hsyms i hlt
    refine ⟨by simp [hv], by simp [hv], fun _ _ => ⟨rfl, fun k _ hk => ?_⟩⟩
    obtain ⟨w, hw⟩ := hsyms k (by omega)
    simp [hw]
  · have hpad := ralpha_eq_pad.2 (hpads i hge hi)
    exact ⟨by simp [hpad], fun _ => by omega, by simp [hpad]⟩

/-- Where every position passes the scan, the first pad, if there is one, splits the sequence. -/
theorem symbolsThenPads_of_scanPasses {sym : Nat → Byte} {m : Nat} (h : ∀ i, i < m → ScanPasses sym m 0 false i) :
    ∃ p ≤ 8, SymbolsThenPads sym m p := by
  by_cases hex : ∃ i, i < m ∧ sym i = padByte
  · obtain ⟨hlt, hpad⟩ := Nat.find_spec hex
    obtain ⟨-, hfinal, -⟩ := h _ hlt
    have hblock := hfinal (ralpha_eq_pad.2 hpad)
    refine ⟨m - Nat.find hex, by omega, fun i hi => ?symbols, fun i hlo hi => ?pads⟩
    case symbols =>
      refine (h i (by omega)).sym_of_ne_pad fun hi' => ?_
      exact Nat.find_min hex (m := i) (by omega) ⟨by omega, hi'⟩
    case pads =>
      rcases eq_or_ne i (Nat.find hex) with rfl | hne
      · exact hpad
      · exact (h i hi).pad_of_pad_before (Nat.zero_le _) (by omega) hpad
  · push Not at hex
    exact ⟨0, by decide, fun i hi => (h i hi).sym_of_ne_pad (hex i hi), fun i hlo hi => by omega⟩

/-- The scan finds no error exactly on symbols and then at most a block of pads. -/
theorem scanSymbols_eq_none_iff {sym : Nat → Byte} {m : Nat} :
    scanSymbols sym m m 0 false = none ↔ ∃ p ≤ 8, SymbolsThenPads sym m p := by
  rw [scanSymbols_none]
  refine ⟨fun h => symbolsThenPads_of_scanPasses fun i hi => h i (Nat.zero_le i) (by omega), ?_⟩
  rintro ⟨p, hp, hshape⟩ i - hi
  exact scanPasses_of_symbolsThenPads hshape hp (by omega)

/-- Of a block's eight positions `p` are among the last `p`. -/
theorem countP_last_of_block : ∀ p ≤ 8, (List.range 8).countP (fun j => decide (8 - p ≤ j)) = p := by decide

theorem padCount_eq {sym : Nat → Byte} {m p : Nat} (h : SymbolsThenPads sym m p) (hp : p ≤ 8) (hm : 8 ≤ m) :
    padCount sym m = p := by
  obtain ⟨hsyms, hpads⟩ := h
  have hlast : ∀ j ∈ List.range 8, (sym (m - 8 + j) == padByte) = true ↔ decide (8 - p ≤ j) = true := by
    intro j hj
    have hj8 := List.mem_range.1 hj
    rw [beq_iff_eq, decide_eq_true_iff]
    constructor
    · intro hpad
      by_contra hlt
      exact ne_padByte_of_sym (hsyms _ (by omega)) hpad
    · intro hge
      exact hpads _ (by omega) (by omega)
  rw [padCount, List.countP_congr hlast, countP_last_of_block p hp]

/-! ### The verdict -/

/-- On symbols and then pads `Validate` judges the number of the pads and the last symbol. -/
theorem validate_eq_finalVerdict {sym : Nat → Byte} {m p : Nat} (h : SymbolsThenPads sym m p) (hp : p ≤ 8) :
    validate sym m = finalVerdict (fun i => laneValue 0 (sym i)) sym m := by
  rw [validate, validateReread, scanSymbols_eq_none_iff.2 ⟨p, hp, h⟩]

theorem laneValue_of_sym {c : Byte} {v : Lane} (free : Lane) (h : ralpha c = .sym v) : laneValue free c = v := by
  rw [laneValue, h]

theorem finalVerdict_of_bad_count {value : Nat → Lane} {last : Nat → Byte} {m : Nat}
    (h : padCountValid (padCount last m) = false) :
    finalVerdict value last m = .error { code := .invalidPadding, pos := m - padCount last m } :=
  if_neg (by simp [h])

/-- A valid count is answered exactly where the unused bits are zero; a `U(p)` of 0 asks for nothing. -/
theorem finalVerdict_of_good_count {value : Nat → Lane} {last : Nat → Byte} {m : Nat}
    (h : padCountValid (padCount last m) = true) :
    finalVerdict value last m =
      if (value (m - padCount last m - 1)).toNat % 2 ^ unusedBits (padCount last m) = 0 then .ok (padCount last m)
      else .error { code := .invalidCharacter, pos := m - padCount last m - 1 } := by
  rw [finalVerdict, if_pos h]
  generalize value (m - padCount last m - 1) = v
  generalize unusedBits (padCount last m) = u
  rcases Nat.eq_zero_or_pos u with rfl | hu
  · simp [Nat.mod_one]
  · simp [unusedNonZero, hu]

end Sys2Proof.Machine

namespace Sys2Proof.Safety.ValidSymbols

open Sys2Proof.Machine

variable {sym : Nat → Byte} {m p : Nat}

theorem symbolsThenPads (h : ValidSymbols sym m p) : SymbolsThenPads sym m p := ⟨h.symbols, h.pads⟩

theorem count_le (h : ValidSymbols sym m p) : p ≤ 6 := by
  have := h.count
  omega

theorem length_ge (h : ValidSymbols sym m p) : 8 ≤ m := by
  have := h.nonempty
  have := h.blocks
  omega

theorem padCount_eq (h : ValidSymbols sym m p) : padCount sym m = p :=
  Machine.padCount_eq h.symbolsThenPads (Nat.le_trans h.count_le (by decide)) h.length_ge

/-- The last symbol before the pads has zero in its unused bits. -/
theorem last (h : ValidSymbols sym m p) :
    ∃ v, ralpha (sym (m - p - 1)) = .sym v ∧ v.toNat % 2 ^ unusedBits p = 0 := by
  have := h.count_le
  have := h.length_ge
  obtain ⟨v, hv⟩ := h.symbols (m - p - 1) (by omega)
  exact ⟨v, hv, h.canonical v hv⟩

theorem validate_eq (h : ValidSymbols sym m p) : validate sym m = .ok p := by
  have hcount := h.padCount_eq
  obtain ⟨v, hv, hzero⟩ := h.last
  rw [validate_eq_finalVerdict h.symbolsThenPads (Nat.le_trans h.count_le (by decide)),
    finalVerdict_of_good_count (hcount.symm ▸ padCountValid_iff.2 h.count), hcount, laneValue_of_sym 0 hv,
    if_pos hzero]

end Sys2Proof.Safety.ValidSymbols

namespace Sys2Proof.Machine

open Sys2Proof.Safety

/-- `Validate` accepts exactly the valid sequences, with their pad count (40_datapath R90). -/
theorem validate_eq_ok_iff {sym : Nat → Byte} {m p : Nat} (hpos : 0 < m) (h8 : m % 8 = 0) :
    validate sym m = .ok p ↔ ValidSymbols sym m p := by
  constructor
  · intro h
    have hscan : scanSymbols sym m m 0 false = none := by
      cases hs : scanSymbols sym m m 0 false with
      | none => rfl
      | some f => simp [validate, validateReread, hs] at h
    obtain ⟨q, hq, hshape⟩ := scanSymbols_eq_none_iff.1 hscan
    obtain ⟨hcount, hvalid⟩ := validateReread_ok h
    obtain rfl : p = q := hcount.trans (padCount_eq hshape hq (by omega))
    obtain ⟨hsyms, hpads⟩ := hshape
    refine ⟨hpos, h8, padCountValid_iff.1 hvalid, hsyms, hpads, fun v hv => ?canonical⟩
    case canonical =>
      rw [validate_eq_finalVerdict ⟨hsyms, hpads⟩ hq, finalVerdict_of_good_count (hcount ▸ hvalid), ← hcount,
        laneValue_of_sym 0 hv] at h
      by_contra hne
      rw [if_neg hne] at h
      cases h
  · exact ValidSymbols.validate_eq

/-- Settles O10: the scan passes symbols and then pads, and the verdict asks for the count and the unused bits. -/
theorem validateAcceptsExactlyValid : Obligations.ValidateAcceptsExactlyValid := fun _ _ _ => validate_eq_ok_iff

theorem not_padCountValid_of_mem : ∀ p ∈ [2, 5, 7, 8], padCountValid p = false := by decide

/-- Settles O12: after the scan the count decides first, and for a valid one the last symbol. -/
theorem validateCountThenCanonical : Obligations.ValidateCountThenCanonical := by
  intro sym m p hpos h8 hp hsyms hpads
  have hcount := padCount_eq ⟨hsyms, hpads⟩ hp (by omega)
  rw [validate_eq_finalVerdict ⟨hsyms, hpads⟩ hp]
  refine ⟨fun hbad => ?count, fun v hgood hv hne => ?canonical⟩
  case count =>
    have hinvalid := not_padCountValid_of_mem p hbad
    rw [finalVerdict_of_bad_count (hcount.symm ▸ hinvalid), hcount]
  case canonical =>
    have hvalid : padCountValid p = true := padCountValid_iff.2 (by simp at hgood; omega)
    rw [finalVerdict_of_good_count (hcount.symm ▸ hvalid), hcount, laneValue_of_sym 0 hv, if_neg hne]

/-! ### The first error of the scan -/

/-- Where `n` positions pass, the scan goes on behind them, and remembers whether one of them was a pad. -/
theorem scanSymbols_of_passed {sym : Nat → Byte} {m n lo : Nat} {seenPad : Bool} (k : Nat)
    (h : scanSymbols sym m n lo seenPad = none) :
    ∃ seen', scanSymbols sym m (n + k) lo seenPad = scanSymbols sym m k (lo + n) seen' ∧
      (seen' = true ↔ seenPad = true ∨ ∃ j, lo ≤ j ∧ j < lo + n ∧ ralpha (sym j) = .pad) := by
  induction n generalizing lo seenPad with
  | zero => exact ⟨seenPad, by simp, by simp; omega⟩
  | succ n ih =>
    rw [scanSymbols] at h
    rw [Nat.add_right_comm, scanSymbols]
    cases hc : ralpha (sym lo) with
    | bad => simp [hc] at h
    | pad =>
      simp only [hc] at h
      split at h
      next hfinal =>
        obtain ⟨seen', hscan, hseen⟩ := ih h
        refine ⟨seen', by simpa [hfinal, Nat.add_assoc, Nat.add_comm 1] using hscan, ?_⟩
        exact iff_of_true (hseen.2 (.inl rfl)) (.inr ⟨lo, le_rfl, by omega, hc⟩)
      next => cases h
    | sym v =>
      simp only [hc] at h
      split at h
      next => cases h
      next hunseen =>
        obtain ⟨seen', hscan, hseen⟩ := ih h
        refine ⟨seen', by simpa [hunseen, Nat.add_assoc, Nat.add_comm 1] using hscan, hseen.trans (or_congr_right ?_)⟩
        refine exists_congr fun j => ⟨fun ⟨hj, hjn, hpad⟩ => ⟨by omega, by omega, hpad⟩, ?_⟩
        rintro ⟨hj, hjn, hpad⟩
        have hne : j ≠ lo := by
          rintro rfl
          cases hc.symm.trans hpad
        exact ⟨by omega, by omega, hpad⟩

theorem validate_of_scanSymbols_some {sym : Nat → Byte} {m : Nat} {f : Failure}
    (h : scanSymbols sym m m 0 false = some f) : validate sym m = .error f := by
  rw [validate, validateReread, h]

/-- Settles O11: the positions before the first bad one pass, and the scan stops there for its class. -/
theorem validateReportsFirstError : Obligations.ValidateReportsFirstError := by
  intro sym m i hpos h8 hi hclean
  have hpassed : scanSymbols sym m i 0 false = none := by
    refine (scanSymbols_none sym m i 0 false).2 fun j _ hj => ?_
    obtain ⟨hbad, hpad, hafter⟩ := hclean j (by omega)
    refine ⟨hbad, hpad, fun v hv => ⟨rfl, fun k _ hk hkpad => ?_⟩⟩
    cases hv.symm.trans (hafter k hk hkpad)
  obtain ⟨seen, hscan, hseen⟩ := scanSymbols_of_passed (m - i - 1 + 1) hpassed
  rw [show i + (m - i - 1 + 1) = m by omega, Nat.zero_add, scanSymbols] at hscan
  refine ⟨fun hbad => ?bad, fun hpad hearly => ?earlyPad, fun v k hv hk hkpad => ?symbolAfterPad⟩
  case bad =>
    rw [hbad] at hscan
    exact validate_of_scanSymbols_some hscan
  case earlyPad =>
    rw [hpad] at hscan
    exact validate_of_scanSymbols_some (hscan.trans (if_neg (by omega)))
  case symbolAfterPad =>
    have hseen' : seen = true := hseen.2 (.inr ⟨k, Nat.zero_le k, by omega, hkpad⟩)
    rw [hv] at hscan
    exact validate_of_scanSymbols_some (hscan.trans (if_pos hseen'))

end Sys2Proof.Machine
end

section
/-! The bit stream through the two pipelines: what each encoded symbol carries, that an encoding is valid, and that
encoding and decoding a block undo each other (40_datapath R84, R87, R89, R91, R93). -/

namespace Sys2Proof.Machine

open Sys2Proof.Safety

/-! ### The stream of bytes -/

theorem byteStreamBit_of_byte (src : Nat → Byte) {n k b : Nat} (hk : k < n) (hb : b < 8) :
    byteStreamBit src n (8 * k + b) = (src k).getLsbD (7 - b) := by
  have hdiv : (8 * k + b) / 8 = k := by omega
  have hmod : (8 * k + b) % 8 = b := by omega
  rw [byteStreamBit, hdiv, hmod, decide_eq_true hk, Bool.true_and]

theorem byteStreamBit_past (src : Nat → Byte) {n x : Nat} (hx : 8 * n ≤ x) : byteStreamBit src n x = false := by
  rw [byteStreamBit, decide_eq_false (by omega), Bool.false_and]

/-- The stream of group `k` is the part of the buffer's stream from bit `40k` on (40_datapath R89). -/
theorem byteStreamBit_group (src : Nat → Byte) (n k : Nat) {x : Nat} (hx : x < 40) :
    byteStreamBit (fun q => src (5 * k + q)) (min 5 (n - 5 * k)) x = byteStreamBit src n (40 * k + x) := by
  have hdiv : (40 * k + x) / 8 = 5 * k + x / 8 := by omega
  have hmod : (40 * k + x) % 8 = x % 8 := by omega
  have hin : x / 8 < min 5 (n - 5 * k) ↔ 5 * k + x / 8 < n := by omega
  rw [byteStreamBit, byteStreamBit, hdiv, hmod, decide_eq_decide.2 hin]

theorem encodedByte_carries (src : Nat → Byte) {n i : Nat} (h : 5 * i < 8 * n) :
    ∃ v, encodedByte src n i = alpha v ∧ ∀ b, b < 5 → v.getLsbD (4 - b) = byteStreamBit src n (5 * i + b) := by
  have hreal : 5 * (i % 8) < 8 * min 5 (n - 5 * (i / 8)) := by omega
  obtain ⟨v, hsym, hbits⟩ := encSymbol_carries (fun q => src (5 * (i / 8) + q)) (Nat.mod_lt i (by decide)) hreal
  refine ⟨v, hsym, fun b hb => ?_⟩
  rw [hbits b hb, byteStreamBit_group src n _ (by omega)]
  congr 1
  omega

theorem encodedByte_pad (src : Nat → Byte) {n i : Nat} (h : 8 * n ≤ 5 * i) : encodedByte src n i = padByte :=
  encSymbol_pad _ (by omega)

/-- Settles O8: a symbol past the stream is a pad, and every other one carries its five bits. -/
theorem encoderCarriesBitStream : Obligations.EncoderCarriesBitStream := by
  intro src n i _
  refine ⟨encodedByte_pad src, fun hreal => ?_⟩
  obtain ⟨v, hsym, hbits⟩ := encodedByte_carries src hreal
  exact ⟨v, hsym ▸ ralpha_of_alpha v, hsym, hbits⟩

/-! ### The stream of symbols -/

theorem symbolStreamBit_of_sym {sym : Nat → Byte} {x : Nat} {v : Lane} (h : ralpha (sym (x / 5)) = .sym v) :
    symbolStreamBit sym x = v.getLsbD (4 - x % 5) := by
  rw [symbolStreamBit, h]

theorem symbolStreamBit_of_pad {sym : Nat → Byte} {x : Nat} (h : sym (x / 5) = padByte) :
    symbolStreamBit sym x = false := by
  rw [symbolStreamBit, h, ralpha_padByte]

/-- The symbols of an encoding carry the stream of its bytes. -/
theorem symbolStreamBit_encodedByte (src : Nat → Byte) (n x : Nat) :
    symbolStreamBit (encodedByte src n) x = byteStreamBit src n x := by
  rcases Nat.lt_or_ge (5 * (x / 5)) (8 * n) with hreal | hpad
  · obtain ⟨v, hsym, hbits⟩ := encodedByte_carries src hreal
    rw [symbolStreamBit_of_sym (hsym ▸ ralpha_of_alpha v), hbits _ (Nat.mod_lt x (by decide)), Nat.div_add_mod]
  · rw [symbolStreamBit_of_pad (encodedByte_pad src hpad), byteStreamBit_past src (by omega)]

/-! ### An encoding is valid -/

/-- The bytes of the last group of `n > 0` bytes (42_encode R121). -/
theorem lastGroup_bounds {n : Nat} (hn : 0 < n) : 1 ≤ n - 5 * (divUp n 5 - 1) ∧ n - 5 * (divUp n 5 - 1) ≤ 5 := by
  have hgroups : divUp n 5 = (n + 4) / 5 := rfl
  omega

theorem padsFor_eq (r : Nat) : padsFor r = 8 - (8 * r + 4) / 5 := rfl

theorem padsFor_lastGroup {n : Nat} (hn : 0 < n) :
    padsFor (n - 5 * (divUp n 5 - 1)) = [0, 6, 4, 3, 1].getD (n % 5) 0 := by
  have hgroups : divUp n 5 = (n + 4) / 5 := rfl
  have hrem : n % 5 < 5 := Nat.mod_lt n (by decide)
  rw [padsFor_eq]
  interval_cases hr : n % 5
  · show _ = 0
    omega
  · show _ = 6
    omega
  · show _ = 4
    omega
  · show _ = 3
    omega
  · show _ = 1
    omega

/-- Settles O9: the pads are those of the last group, whose number of bytes is that remainder, or 5 for none. -/
theorem padScheduleByRemainder : Obligations.PadScheduleByRemainder := by
  intro src n i hn hi
  rw [← padsFor_lastGroup hn]
  exact encodedByte_eq_padByte_iff src hi

theorem padsFor_valid {r : Nat} (hpos : 1 ≤ r) (hle : r ≤ 5) :
    padsFor r = 0 ∨ padsFor r = 1 ∨ padsFor r = 3 ∨ padsFor r = 4 ∨ padsFor r = 6 := by
  rw [padsFor_eq]
  omega

/-- The low `u` bits of a lane are all zero where each of them is. -/
theorem lane_mod_two_pow_eq_zero {v : Lane} {u : Nat} (h : ∀ c, c < u → v.getLsbD c = false) : v.toNat % 2 ^ u = 0 := by
  refine Nat.eq_of_testBit_eq fun c => ?_
  rw [Nat.testBit_mod_two_pow, Nat.zero_testBit]
  rcases Nat.lt_or_ge c u with hc | hc
  · rw [← BitVec.getLsbD, h c hc, Bool.and_false]
  · rw [decide_eq_false (by omega), Bool.false_and]

theorem getLsbD_eq_false_of_mod {v : Lane} {u c : Nat} (h : v.toNat % 2 ^ u = 0) (hc : c < u) :
    v.getLsbD c = false := by
  have hbit : (v.toNat % 2 ^ u).testBit c = false := by rw [h, Nat.zero_testBit]
  rwa [Nat.testBit_mod_two_pow, decide_eq_true hc, Bool.true_and] at hbit

/-- An encoding is valid: its unused bits are zero because they lie past the input (40_datapath R87, R90). -/
theorem validSymbols_encodedByte (src : Nat → Byte) {n : Nat} (hn : 0 < n) :
    ValidSymbols (encodedByte src n) (encodedLength n) (padsFor (n - 5 * (divUp n 5 - 1))) := by
  obtain ⟨hpos, hle⟩ := lastGroup_bounds hn
  have hgroups : divUp n 5 = (n + 4) / 5 := rfl
  have hlen : encodedLength n = divUp n 5 * 8 := rfl
  have hpads := padsFor_eq (n - 5 * (divUp n 5 - 1))
  refine ⟨by omega, by omega, padsFor_valid hpos hle, fun i hi => ?symbols, fun i hlo hi => ?pads, fun v hv => ?zeros⟩
  case symbols =>
    obtain ⟨v, hsym, -⟩ := encodedByte_carries src (n := n) (i := i) (by omega)
    exact ⟨v, hsym ▸ ralpha_of_alpha v⟩
  case pads => exact encodedByte_pad src (by omega)
  case zeros =>
    obtain ⟨w, hsym, hbits⟩ := encodedByte_carries src (n := n)
      (i := encodedLength n - padsFor (n - 5 * (divUp n 5 - 1)) - 1) (by omega)
    rw [hsym, ralpha_of_alpha] at hv
    cases hv
    refine lane_mod_two_pow_eq_zero fun c hc => ?_
    rw [unusedBits, byteCount_padsFor hpos hle] at hc
    rw [show c = 4 - (4 - c) by omega, hbits (4 - c) (by omega), byteStreamBit_past src (by omega)]

/-- Settles O13: an encoding is a valid sequence, and `Validate` accepts those. -/
theorem encodingValidates : Obligations.EncodingValidates := fun src _ hn =>
  (validSymbols_encodedByte src hn).validate_eq

/-! ### One block -/

theorem encodedByte_of_block (g : Nat → Byte) {r j : Nat} (hle : r ≤ 5) (hj : j < 8) :
    encodedByte g r j = encSymbol g r j := by
  have hdiv : j / 8 = 0 := by omega
  have hmod : j % 8 = j := by omega
  have hcount : min 5 (r - 5 * 0) = r := by omega
  simp only [encodedByte, hdiv, hmod, hcount, Nat.mul_zero, Nat.zero_add]

theorem validSymbols_congr {a b : Nat → Byte} {m p : Nat} (h : ∀ i, i < m → a i = b i) (ha : ValidSymbols a m p) :
    ValidSymbols b m p where
  nonempty := ha.nonempty
  blocks := ha.blocks
  count := ha.count
  symbols i hi := h i (by omega) ▸ ha.symbols i hi
  pads i hlo hi := h i hi ▸ ha.pads i hlo hi
  canonical v hv := by
    have := ha.nonempty
    exact ha.canonical v ((congrArg ralpha (h _ (by omega))).trans hv)

theorem validSymbols_encSymbol (g : Nat → Byte) {r : Nat} (hpos : 1 ≤ r) (hle : r ≤ 5) :
    ValidSymbols (encSymbol g r) 8 (padsFor r) := by
  have hgroup : divUp r 5 = 1 := by
    have hgroups : divUp r 5 = (r + 4) / 5 := rfl
    omega
  have hvalid := validSymbols_encodedByte g hpos
  rw [encodedLength, hgroup] at hvalid
  exact validSymbols_congr (fun j hj => encodedByte_of_block g hle hj) hvalid

theorem symbolStreamBit_encSymbol (g : Nat → Byte) {r x : Nat} (hle : r ≤ 5) (hx : x < 40) :
    symbolStreamBit (encSymbol g r) x = byteStreamBit g r x := by
  rw [← symbolStreamBit_encodedByte, symbolStreamBit, symbolStreamBit, encodedByte_of_block g hle (by omega)]

/-- A decoded byte carries the stream of its symbols, wherever each of its bits comes from a real symbol. -/
theorem decByte_carries {c : Nat → Byte} (free : Nat → Lane) {p k b : Nat}
    (hsyms : ∀ j, j < 8 - p → ∃ v, ralpha (c j) = .sym v) (hk : k < 5) (hb : b < 8) (hreal : (8 * k + b) / 5 < 8 - p) :
    (decByte (fun j => laneValue (free j) (c j)) p k).getLsbD (7 - b) = symbolStreamBit c (8 * k + b) := by
  obtain ⟨v, hv⟩ := hsyms _ hreal
  rw [decByte_bit _ p hk hb, if_pos hreal, laneValue_of_sym _ hv, symbolStreamBit_of_sym hv]

/-- The bytes of a block with a valid pad count come from its real symbols (40_datapath R86). -/
theorem bit_of_real_symbol {p k b : Nat} (hp : p = 0 ∨ p = 1 ∨ p = 3 ∨ p = 4 ∨ p = 6) (hk : k < byteCount p)
    (hb : b < 8) : (8 * k + b) / 5 < 8 - p := by
  obtain rfl | rfl | rfl | rfl | rfl := hp <;> simp only [byteCount] at hk <;> omega

/-- Settles O14: the block is valid, and its symbols carry the stream of the group's bytes. -/
theorem decodeBlockInvertsEncodeBlock : Obligations.DecodeBlockInvertsEncodeBlock := by
  intro g r free hpos hle
  have hvalid := validSymbols_encSymbol g hpos hle
  refine ⟨hvalid.validate_eq, fun k hk => byte_ext fun b hb => ?_⟩
  have hreal := bit_of_real_symbol hvalid.count (by rwa [byteCount_padsFor hpos hle]) hb
  rw [decByte_carries free hvalid.symbols (by omega) hb hreal, symbolStreamBit_encSymbol g hle (by omega),
    byteStreamBit_of_byte g hk hb]

/-- The bytes decoded from a valid block carry the stream of its symbols. -/
theorem byteStreamBit_decBlkByte {c : Nat → Byte} {p : Nat} (free : Nat → Lane) (h : ValidSymbols c 8 p) {x : Nat}
    (hx : x < 8 * byteCount p) :
    byteStreamBit (decBlkByte (fun j => laneValue (free j) (c j)) p) (byteCount p) x = symbolStreamBit c x := by
  have hk : x / 8 < byteCount p := by omega
  have hb : x % 8 < 8 := Nat.mod_lt x (by decide)
  have hk5 := byteCount_le p
  have hreal := bit_of_real_symbol h.count hk hb
  rw [← Nat.div_add_mod x 8, byteStreamBit_of_byte _ hk hb, decBlkByte, if_pos hk,
    decByte_carries free h.symbols (by omega) hb hreal]

/-- A block's real symbols are those that hold a bit of its bytes, and its unused bits follow its bytes
(40_datapath R85, R86). -/
theorem real_symbol_iff {p j : Nat} (hp : p = 0 ∨ p = 1 ∨ p = 3 ∨ p = 4 ∨ p = 6) :
    j < 8 - p ↔ 5 * j < 8 * byteCount p := by
  obtain rfl | rfl | rfl | rfl | rfl := hp <;> simp only [byteCount] <;> omega

/-- Settles O15: a pad position is past the bytes' stream, and a real symbol carries its five bits, those past the
bytes being zero in the block as in the stream. -/
theorem encodeBlockInvertsDecodeBlock : Obligations.EncodeBlockInvertsDecodeBlock := by
  intro c p free hok j hj
  have hvalid := (validate_eq_ok_iff (by decide) (by decide)).1 hok
  rcases Nat.lt_or_ge j (8 - p) with hreal | hpad
  · obtain ⟨w, hw⟩ := hvalid.symbols j hreal
    obtain ⟨v, hsym, hbits⟩ := encSymbol_carries (decBlkByte (fun j => laneValue (free j) (c j)) p) hj
      ((real_symbol_iff hvalid.count).1 hreal)
    have hlane : v = w := lane_ext fun b hb => by
      rw [hbits b hb]
      rcases Nat.lt_or_ge (5 * j + b) (8 * byteCount p) with hin | hpast
      · have hdiv : (5 * j + b) / 5 = j := by omega
        rw [byteStreamBit_decBlkByte free hvalid hin, symbolStreamBit_of_sym (hdiv.symm ▸ hw)]
        congr 1
        omega
      · have hlast : 8 - p - 1 = j := by
          have := mt (real_symbol_iff (j := j + 1) hvalid.count).1 (by omega)
          omega
        rw [byteStreamBit_past _ hpast, getLsbD_eq_false_of_mod (hvalid.canonical w (hlast.symm ▸ hw))]
        rw [unusedBits]
        omega
    rw [hsym, hlane, alpha_of_ralpha hw]
  · rw [hvalid.pads j hpad hj]
    exact encSymbol_pad _ (Nat.le_of_not_lt (mt (real_symbol_iff hvalid.count).2 (by omega)))

end Sys2Proof.Machine
end

section
/-! The checks of ENCODE and DECODE in their order, and how ENCODE, DECBLK, DECLEN and DECODE complete on each verdict
(42_encode R120, 43_decode R130, R140, R145, R150, 60_exceptions R164). -/

namespace Sys2Proof.Machine

open Sys2Proof.Safety

/-- The overlap check fails on two non-empty regions each of which begins before the other ends (42_encode R120). -/
theorem regionsMeet_iff {src lenSrc dst lenDst : Nat} :
    regionsMeet src lenSrc dst lenDst = true ↔
      0 < lenSrc ∧ 0 < lenDst ∧ src < dst + lenDst ∧ dst < src + lenSrc := by
  simp [regionsMeet, and_assoc]

/-- An error of a scan or of the checks after it is one of two codes. -/
theorem errNumber_of_symbol_error {c : ErrCode} (h : c = .invalidCharacter ∨ c = .invalidPadding) :
    errNumber c = if c = .invalidCharacter then 4 else 3 := by
  obtain rfl | rfl := h <;> rfl

/-- The command ends with this code and position, and changes nothing else but the draws' count (60_exceptions R162). -/
def FailsWith (i : Instr) (s : State) (code : BitVec 4) (pos : Word) : Prop :=
  ∃ draws, exec i s = .next { s with
    result := 0, errCode := code, errPos := pos, done := false, err := true, busy := false, draws := draws }

theorem failsWith_of_raiseError {i : Instr} {s : State} {f : Failure}
    (h : exec i s = .next (raiseError f (spendDraws s))) :
    FailsWith i s (errNumber f.code) (BitVec.ofNat 32 f.pos) := ⟨_, h⟩

theorem failsWith_of_symbol_error {i : Instr} {s : State} {f : Failure}
    (h : exec i s = .next (raiseError f (spendDraws s)))
    (hcode : f.code = .invalidCharacter ∨ f.code = .invalidPadding) :
    FailsWith i s (if f.code = .invalidCharacter then 4 else 3) (BitVec.ofNat 32 f.pos) :=
  errNumber_of_symbol_error hcode ▸ failsWith_of_raiseError h

/-! ### ENCODE -/

/-- Settles O20: each branch of the statement is the branch of `encodeChecks` with that error, and the last is where
the operands are ready. -/
theorem encodeErrorsInOrder : Obligations.EncodeErrorsInOrder := by
  intro s src n dst len fails
  have hlen : len = (n + 4) / 5 * 8 := rfl
  split
  next h1 => exact failsWith_of_raiseError (exec_encode_of_error (if_pos h1))
  next h1 =>
  split
  next h2 => exact failsWith_of_raiseError (exec_encode_of_error ((if_neg h1).trans (if_pos h2)))
  next h2 =>
  split
  next h3 =>
    exact failsWith_of_raiseError (exec_encode_of_error ((if_neg h1).trans ((if_neg h2).trans (if_pos h3))))
  next h3 =>
  split
  next h4 =>
    exact failsWith_of_raiseError (exec_encode_of_error
      ((if_neg h1).trans ((if_neg h2).trans ((if_neg h3).trans (if_pos h4)))))
  next h4 =>
  split
  next h5 =>
    have hmeet : regionsMeet src n dst len = true := regionsMeet_iff.2 (by omega)
    exact failsWith_of_raiseError (exec_encode_of_error
      ((if_neg h1).trans ((if_neg h2).trans ((if_neg h3).trans ((if_neg h4).trans (if_pos hmeet))))))
  next h5 =>
    have hready : EncodeReady s.lat :=
      ⟨encodedLength_le_lenMax.1 (Nat.le_of_not_lt h1), Nat.le_of_not_lt h2, Nat.le_of_not_lt h3, Nat.le_of_not_lt h4,
        show Apart src n dst len by unfold Apart; omega⟩
    exact ⟨_, exec_encode_of_ready hready, rfl, rfl⟩

/-! ### The decoded length -/

theorem decodedLengthOf_of_bad_length {src m : Nat} (v : Except Failure Nat) (h : m % 8 ≠ 0) :
    decodedLengthOf v src m = .error { code := .invalidLength, pos := 0 } := if_pos h

theorem decodedLengthOf_of_range {src m : Nat} (v : Except Failure Nat) (h8 : m % 8 = 0) (h : 2 ^ 32 < src + m) :
    decodedLengthOf v src m = .error { code := .range, pos := 0 } :=
  (if_neg (by omega)).trans (if_pos h)

theorem decodedLengthOf_zero {src : Nat} (v : Except Failure Nat) (h : src ≤ 2 ^ 32) :
    decodedLengthOf v src 0 = .ok 0 := by
  unfold decodedLengthOf
  rw [if_neg (by decide), if_neg (by rw [Config.memSize]; omega), if_pos rfl]

/-- Where a source has a decoded length it is empty, or its symbols are valid and have that length (43_decode R130). -/
theorem validSymbols_of_decodedLengthOf_ok {sym : Nat → Byte} {src m n : Nat}
    (h : decodedLengthOf (validate sym m) src m = .ok n) :
    (m = 0 ∧ n = 0) ∨ ∃ p, ValidSymbols sym m p ∧ n = decodedLength m p := by
  unfold decodedLengthOf at h
  split at h
  next => cases h
  next hblocks =>
  split at h
  next => cases h
  next =>
  split at h
  next hzero =>
    cases h
    exact .inl ⟨hzero, rfl⟩
  next hne =>
    split at h
    next => cases h
    next p hp =>
      cases h
      exact .inr ⟨p, (validate_eq_ok_iff (by omega) (by omega)).1 hp, rfl⟩

theorem decodedLength_eq (m p : Nat) : decodedLength m p = (m / 8 - 1) * 5 + byteCount p := rfl

/-- A final block holds five bytes at most, so the length is at most five eighths (43_decode R145). -/
theorem eight_mul_decodedLength_le {m p : Nat} (h : 8 ≤ m) : 8 * decodedLength m p ≤ 5 * m := by
  have hbytes := byteCount_le p
  rw [decodedLength_eq]
  omega

theorem decodeChecks_of_error {sym : Nat → Byte} {l : Latched} {f : Failure}
    (h : decodedLengthOf (validate sym l.srcLen.toNat) l.srcAddr.toNat l.srcLen.toNat = .error f) :
    decodeChecks sym l = .error f := by
  rw [decodeChecks, h]

/-- The checks of DECODE after its source has a decoded length (43_decode R150). -/
theorem decodeChecks_of_length {sym : Nat → Byte} {l : Latched} {len : Nat}
    (h : decodedLengthOf (validate sym l.srcLen.toNat) l.srcAddr.toNat l.srcLen.toNat = .ok len) :
    decodeChecks sym l =
      if l.dstCap.toNat < len then .error { code := .bufferTooSmall, pos := 0 }
      else if Config.memSize < l.dstAddr.toNat + len then .error { code := .range, pos := 1 }
      else if regionsMeet l.srcAddr.toNat l.srcLen.toNat l.dstAddr.toNat len then .error { code := .overlap, pos := 0 }
      else .ok len := by
  rw [decodeChecks, h]

/-! ### How the decode commands complete -/

theorem exec_decode_of_error {s : State} {f : Failure} (h : decodeChecks (sourceByte s s.draws) s.lat = .error f) :
    exec .decode s = .next (raiseError f (spendDraws s)) := by
  rw [exec, execDecode, h]

theorem exec_decode_of_ok {s : State} {n : Nat} (h : decodeChecks (sourceByte s s.draws) s.lat = .ok n) :
    exec .decode s = .next (finish n
      { spendDraws s with
        mem := memWriteRange s.mem s.lat.dstAddr.toNat
          (decodedByte (s.draws + 1) (sourceByte s s.draws) (sourceByte s (s.draws + 1)) s.lat.srcLen.toNat) n }) := by
  rw [exec, execDecode, h]

theorem exec_declen_of_error {s : State} {f : Failure}
    (h : decodedLengthOf (declenVerdict s) s.lat.srcAddr.toNat s.lat.srcLen.toNat = .error f) :
    exec .declen s = .next (raiseError f (spendDraws s)) := by
  rw [exec, execDeclen, h]

theorem exec_declen_of_ok {s : State} {n : Nat}
    (h : decodedLengthOf (declenVerdict s) s.lat.srcAddr.toNat s.lat.srcLen.toNat = .ok n) :
    exec .declen s = .next (finish n (spendDraws s)) := by
  rw [exec, execDeclen, h]

theorem exec_decblk_of_error {s : State} {f : Failure} (h : validate (symbolByte s.lat) 8 = .error f) :
    exec .decblk s = .next (raiseError f s) := by
  rw [exec, execDecblk, h]

theorem exec_decblk_of_ok {s : State} {p : Nat} (h : validate (symbolByte s.lat) 8 = .ok p) :
    exec .decblk s = .next (finish (byteCount p)
      (setGroup (decBlkByte (fun j => laneValue (Config.freeLane s.draws j) (symbolByte s.lat j)) p) s)) := by
  rw [exec, execDecblk, h]

/-- An error of the length or the range comes before any byte is judged, in DECODE and in DECLEN. -/
theorem exec_of_error_before_bytes {i : Instr} {s : State} {f : Failure} (hi : i ∈ [Instr.decode, .declen])
    (h : ∀ v, decodedLengthOf v s.lat.srcAddr.toNat s.lat.srcLen.toNat = .error f) :
    exec i s = .next (raiseError f (spendDraws s)) := by
  obtain rfl | rfl : i = .decode ∨ i = .declen := by simpa using hi
  · exact exec_decode_of_error (decodeChecks_of_error (h _))
  · exact exec_declen_of_error (h _)

/-- Settles O27: the length's check is the first and the range's the second, whatever `Validate` would say. -/
theorem decodeLengthThenRange : Obligations.DecodeLengthThenRange := by
  intro s i hi fails
  refine ⟨fun hlen => ?length, fun hlen hrange => ?range⟩
  case length =>
    exact failsWith_of_raiseError (exec_of_error_before_bytes hi fun v => decodedLengthOf_of_bad_length v hlen)
  case range =>
    exact failsWith_of_raiseError (exec_of_error_before_bytes hi fun v => decodedLengthOf_of_range v hlen hrange)

/-- Settles O26: no symbols decode to no bytes, for which every destination is ready, and an empty write is none. -/
theorem decodeEmptySource : Obligations.DecodeEmptySource := by
  intro s hzero i hi
  have hlen : s.lat.srcLen.toNat = 0 := by rw [hzero]; rfl
  have hdecoded : ∀ v, decodedLengthOf v s.lat.srcAddr.toNat s.lat.srcLen.toNat = .ok 0 := fun v =>
    hlen.symm ▸ decodedLengthOf_zero v s.lat.srcAddr.isLt.le
  obtain rfl | rfl : i = .decode ∨ i = .declen := by simpa using hi
  · have hready : DecodeReady s.lat 0 :=
      ⟨hlen.symm ▸ s.lat.srcAddr.isLt.le, Nat.zero_le _, s.lat.dstAddr.isLt.le, .inr (.inl rfl)⟩
    exact ⟨_, exec_decode_of_ok (decodeChecks_ok_iff.2 ⟨hdecoded _, hready⟩)⟩
  · exact ⟨_, exec_declen_of_ok (hdecoded _)⟩

/-! ### DECBLK -/

/-- Byte lane `k` of `GRP_HI ++ GRP_LO` holds byte `k` (10_state R24, R25). -/
theorem setGroup_lane (out : Nat → Byte) (s : State) {k : Nat} (hk : k < 5) :
    ((setGroup out s).grpHi ++ (setGroup out s).grpLo : BitVec 40).extractLsb' (8 * k) 8 = out k := by
  refine BitVec.eq_of_getLsbD_eq fun i hi => ?_
  show BitVec.getLsbD (BitVec.extractLsb' (8 * k) 8
    (out 4 ++ (out 3 ++ out 2 ++ out 1 ++ out 0 : BitVec (8 + 8 + 8 + 8)))) i = _
  simp only [BitVec.getLsbD_extractLsb', BitVec.getLsbD_append]
  interval_cases k <;> interval_cases i <;> rfl

/-- Settles O23: the group registers hold the decoded bytes, which carry the stream of the block's symbols. -/
theorem decblkSucceeds : Obligations.DecblkSucceeds := by
  refine ⟨decodeWord_encodeInstr .decblk, fun s p hvalid => ?_⟩
  refine ⟨_, _, exec_decblk_of_ok hvalid.validate_eq, fun k hk => ⟨fun hpast => ?unused, fun hin b hb => ?byte⟩⟩
  case unused => exact (setGroup_lane _ s hk).trans (if_neg (by omega))
  case byte =>
    refine (congrArg (fun v : Byte => v.getLsbD (7 - b)) (setGroup_lane _ s hk)).trans ?_
    rw [← byteStreamBit_of_byte _ hin hb]
    exact byteStreamBit_decBlkByte _ hvalid (by omega)

/-- Settles O24: an error of `Validate` is one of two, stands inside the block, and is raised as it is. -/
theorem decblkFails : Obligations.DecblkFails := by
  intro s f hf
  obtain ⟨hpos, hcode⟩ := validate_error le_rfl hf
  exact ⟨hpos, hcode, errNumber_of_symbol_error hcode ▸ exec_decblk_of_error hf⟩

/-! ### DECLEN -/

/-- Settles O25: where the final block is written DECLEN judges one reading of its source. -/
theorem declenOfSource : Obligations.DeclenOfSource := by
  intro s hpos h8 hfits hwritten
  have hlen : 8 ≤ s.lat.srcLen.toNat := by omega
  have hverdict := declenVerdict_eq hlen fun j hj => hwritten (s.lat.srcLen.toNat - 8 + j) (by omega) (by omega)
  refine ⟨sourceByte s s.draws, sourceByte_agrees s s.draws, fun p hvalid => ⟨?bound, ?ok⟩, fun f hf => ?error⟩
  case bound =>
    have := eight_mul_decodedLength_le (p := p) hlen
    rw [decodedLength_eq] at this
    omega
  case ok =>
    refine ⟨_, exec_declen_of_ok ?_⟩
    rw [hverdict, hvalid.validate_eq]
    exact decodedLengthOf_ok hpos h8 hfits
  case error =>
    obtain ⟨hin, hcode⟩ := validate_error hlen hf
    refine ⟨hin, failsWith_of_symbol_error (exec_declen_of_error ?_) hcode⟩
    rw [hverdict, hf]
    exact decodedLengthOf_error hpos h8 hfits

/-- Settles O58: the scan of the first reading decides, and after it the final block of the second. -/
theorem declenRereadsFinalBlock : Obligations.DeclenRereadsFinalBlock := by
  intro s hpos h8 hfits m fails succeeds
  have hfails {f : Failure} (hf : declenVerdict s = .error f)
      (hcode : f.code = .invalidCharacter ∨ f.code = .invalidPadding) :
      fails (if f.code = .invalidCharacter then 4 else 3) f.pos := by
    refine failsWith_of_symbol_error (exec_declen_of_error ?_) hcode
    rw [hf]
    exact decodedLengthOf_error hpos h8 hfits
  have hsucceeds {p : Nat} (hp : declenVerdict s = .ok p) : succeeds ((m / 8 - 1) * 5 + byteCount p) := by
    refine ⟨_, exec_declen_of_ok ?_⟩
    rw [hp]
    exact decodedLengthOf_ok hpos h8 hfits
  refine ⟨sourceByte s s.draws, sourceByte s (s.draws + 1), sourceByte_agrees s _, sourceByte_agrees s _,
    fun f hf => ?scan, fun hnone => ⟨fun hbad => ?count, fun hgood => ?canonical⟩⟩
  case scan =>
    obtain ⟨-, hin, hcode⟩ := scanSymbols_some hf
    have hverdict : declenVerdict s = .error f := by rw [declenVerdict, validateReread, hf]
    exact ⟨by omega, hfails hverdict hcode⟩
  all_goals
    have hverdict : declenVerdict s = finalVerdict
        (fun i => laneValue (Config.freeLane (s.draws + 1) i) (sourceByte s (s.draws + 1) i))
        (sourceByte s (s.draws + 1)) m := by
      rw [declenVerdict, validateReread, hnone]
  case count =>
    exact hfails (hverdict.trans (finalVerdict_of_bad_count (not_padCountValid_of_mem _ hbad))) (.inr rfl)
  case canonical =>
    have hvalid := padCountValid_iff.2 (by simpa using hgood)
    rw [finalVerdict_of_good_count hvalid] at hverdict
    refine ⟨?either, fun v hv => ?decided⟩
    case either =>
      split at hverdict
      next => exact .inl (hsucceeds hverdict)
      next => exact .inr (hfails hverdict (.inl rfl))
    case decided =>
      rw [laneValue_of_sym _ hv] at hverdict
      split
      next hzero => exact hsucceeds (hverdict.trans (if_pos hzero))
      next hne => exact hfails (hverdict.trans (if_neg hne)) (.inl rfl)

end Sys2Proof.Machine
end

section
/-! DECODE on valid symbols: its checks, its bytes and its extent, and that it undoes ENCODE (40_datapath R93,
43_decode R150, R155, R156). -/

namespace Sys2Proof.Machine

open Sys2Proof.Safety

theorem byteCount_pos {p : Nat} (hp : p = 0 ∨ p = 1 ∨ p = 3 ∨ p = 4 ∨ p = 6) : 0 < byteCount p := by
  obtain rfl | rfl | rfl | rfl | rfl := hp <;> decide

/-- Settles O28: an error of `Validate` is the answer of the checks, and for valid symbols each branch of the statement
is the branch of the checks after the length. -/
theorem decodeErrorsInOrder : Obligations.DecodeErrorsInOrder := by
  intro s hpos h8 hfits src m dst fails
  refine ⟨sourceByte s s.draws, sourceByte_agrees s s.draws, fun f hf => ?invalid, fun p hvalid => ?valid⟩
  case invalid =>
    obtain ⟨hin, hcode⟩ := validate_error (by omega) hf
    refine ⟨hin, failsWith_of_symbol_error (exec_decode_of_error (decodeChecks_of_error ?_)) hcode⟩
    rw [hf]
    exact decodedLengthOf_error hpos h8 hfits
  case valid =>
    intro len
    have hchecks := decodeChecks_of_length (sym := sourceByte s s.draws) (l := s.lat) (len := len) (by
      rw [hvalid.validate_eq]
      exact decodedLengthOf_ok hpos h8 hfits)
    have hlen : len = (m / 8 - 1) * 5 + byteCount p := rfl
    split
    next h1 => exact failsWith_of_raiseError (exec_decode_of_error (hchecks.trans (if_pos h1)))
    next h1 =>
    rw [if_neg h1] at hchecks
    split
    next h2 => exact failsWith_of_raiseError (exec_decode_of_error (hchecks.trans (if_pos h2)))
    next h2 =>
    replace hchecks := hchecks.trans (if_neg h2)
    split
    next h3 =>
      have hbytes := byteCount_pos hvalid.count
      have hmeet : regionsMeet src m dst len = true := regionsMeet_iff.2 (by omega)
      exact failsWith_of_raiseError (exec_decode_of_error (hchecks.trans (if_pos hmeet)))
    next h3 =>
      have hmeet : ¬ regionsMeet src m dst len = true := fun h => h3 (by
        obtain ⟨-, -, hboth⟩ := regionsMeet_iff.1 h
        exact hboth)
      exact ⟨_, exec_decode_of_ok (hchecks.trans (if_neg hmeet)), rfl, rfl⟩

/-! ### The bytes of DECODE -/

theorem symbolStreamBit_congr {a b : Nat → Byte} {x : Nat} (h : a (x / 5) = b (x / 5)) :
    symbolStreamBit a x = symbolStreamBit b x := by
  rw [symbolStreamBit, symbolStreamBit, h]

/-- The stream of block `k` is the part of the sequence's stream from bit `40k` on. -/
theorem symbolStreamBit_block (sym : Nat → Byte) (k x : Nat) :
    symbolStreamBit (fun j => sym (8 * k + j)) x = symbolStreamBit sym (40 * k + x) := by
  have hdiv : (40 * k + x) / 5 = 8 * k + x / 5 := by omega
  have hmod : (40 * k + x) % 5 = x % 5 := by omega
  rw [symbolStreamBit, symbolStreamBit, hdiv, hmod]

theorem blockPads_of_valid {sym : Nat → Byte} {m p : Nat} (h : ValidSymbols sym m p) (k : Nat) :
    blockPads sym m k = if k + 1 = m / 8 then p else 0 := by
  rw [blockPads, h.padCount_eq]

/-- Every byte of the decoded length comes from real symbols of its block (40_datapath R92). -/
theorem bit_of_real_symbol_of_block {m p i b : Nat} (hp : p = 0 ∨ p = 1 ∨ p = 3 ∨ p = 4 ∨ p = 6)
    (hi : i < decodedLength m p) (hb : b < 8) :
    (8 * (i % 5) + b) / 5 < 8 - if i / 5 + 1 = m / 8 then p else 0 := by
  rw [decodedLength_eq] at hi
  split
  next hlast => exact bit_of_real_symbol hp (by omega) hb
  next => omega

/-- A byte of DECODE's output carries the stream of the symbols, where both readings of them are valid with the same
pads. -/
theorem decodedByte_carries {sym again : Nat → Byte} {m p i b : Nat} (t : Nat) (hsym : ValidSymbols sym m p)
    (hagain : ValidSymbols again m p) (hi : i < decodedLength m p) (hb : b < 8) :
    (decodedByte t sym again m i).getLsbD (7 - b) = symbolStreamBit again (8 * i + b) := by
  have hreal := bit_of_real_symbol_of_block hagain.count hi hb
  have hlen := decodedLength_eq m p
  have hbytes := byteCount_le p
  rw [decodedByte, if_pos (by rw [blockPads_of_valid hsym, blockPads_of_valid hagain]), blockPads_of_valid hagain,
    decByte_carries (c := fun j => again (8 * (i / 5) + j)) (fun j => Config.freeLane t (8 * (i / 5) + j)) ?symbols
      (Nat.mod_lt i (by decide)) hb hreal, symbolStreamBit_block]
  case symbols =>
    intro j hj
    refine hagain.symbols _ ?_
    have := hagain.blocks
    have := hagain.length_ge
    have := hagain.count_le
    split at hj <;> omega
  congr 1
  omega

theorem exec_decode_of_valid {s : State} {p : Nat} (h : ValidSymbols (sourceByte s s.draws) s.lat.srcLen.toNat p)
    (hready : DecodeReady s.lat (decodedLength s.lat.srcLen.toNat p)) :
    exec .decode s = .next (finish (decodedLength s.lat.srcLen.toNat p)
      { spendDraws s with
        mem := memWriteRange s.mem s.lat.dstAddr.toNat
          (decodedByte (s.draws + 1) (sourceByte s s.draws) (sourceByte s (s.draws + 1)) s.lat.srcLen.toNat)
          (decodedLength s.lat.srcLen.toNat p) }) := by
  refine exec_decode_of_ok (decodeChecks_ok_iff.2 ⟨?_, hready⟩)
  rw [h.validate_eq]
  exact decodedLengthOf_ok h.nonempty h.blocks hready.sourceFits

theorem validSymbols_sourceByte {s : State} {sym : Nat → Byte} {p : Nat} (hholds : SourceHolds s sym)
    (h : ValidSymbols sym s.lat.srcLen.toNat p) (t : Nat) :
    ValidSymbols (sourceByte s t) s.lat.srcLen.toNat p :=
  validSymbols_congr (fun _ hi => (sourceByte_eq hholds t hi).symm) h

/-- Settles O29: both readings of a written source find its symbols, so each byte carries their stream, and outside the
range written nothing differs. -/
theorem decodeSucceeds : Obligations.DecodeSucceeds := by
  intro s sym p hholds hvalid len hready
  have hread := validSymbols_sourceByte hholds hvalid
  refine ⟨_, _, exec_decode_of_valid (hread s.draws) hready, fun i hi => ?inside, fun a ha => ?outside⟩
  case inside =>
    refine ⟨_, memFind_memWriteRange_inside s.mem _ hi, fun b hb => ?_⟩
    have hbound := eight_mul_decodedLength_le (p := p) hvalid.length_ge
    have hlen : len = decodedLength s.lat.srcLen.toNat p := rfl
    rw [decodedByte_carries _ (hread _) (hread _) hi hb]
    exact symbolStreamBit_congr (sourceByte_eq hholds _ (by omega))
  case outside => exact memFind_memWriteRange_outside _ _ ha

/-- Settles O30: a DECODE that is done has passed its checks, which give the length, and wrote a range of that
length. -/
theorem decodeExtent : Obligations.DecodeExtent := by
  intro s t h hdone
  cases hchecks : decodeChecks (sourceByte s s.draws) s.lat with
  | error f =>
    cases (exec_decode_of_error hchecks).symm.trans h
    cases hdone
  | ok n =>
    cases (exec_decode_of_ok hchecks).symm.trans h
    obtain ⟨hlength, hready⟩ := decodeChecks_ok_iff.1 hchecks
    have hlength := validSymbols_of_decodedLengthOf_ok hlength
    have hresult : (BitVec.ofNat 32 n).toNat = n := by
      have := hready.room
      have := s.lat.dstCap.isLt
      rw [BitVec.toNat_ofNat]
      omega
    simp only [finish_result, hresult, finish_mem]
    refine ⟨fun hzero => ?empty, fun hne => ?symbols, hready.room, hready.destFits,
      fun i hi => ⟨_, memFind_memWriteRange_inside s.mem _ hi⟩, fun a ha => memFind_memWriteRange_outside _ _ ha⟩
    case empty =>
      obtain ⟨-, rfl⟩ | ⟨p, hvalid, -⟩ := hlength
      · rfl
      · exact absurd hvalid.nonempty (by simp [hzero])
    case symbols =>
      obtain ⟨hzero, -⟩ | ⟨p, hvalid, rfl⟩ := hlength
      · exact absurd (BitVec.eq_of_toNat_eq hzero) hne
      · exact ⟨_, p, sourceByte_agrees s s.draws, hvalid, rfl⟩

/-! ### The round trip -/

/-- An encoding decodes to as many bytes as it encodes (40_datapath R92, R93). -/
theorem decodedLength_encodedLength {n : Nat} (hn : 0 < n) :
    decodedLength (encodedLength n) (padsFor (n - 5 * (divUp n 5 - 1))) = n := by
  obtain ⟨hpos, hle⟩ := lastGroup_bounds hn
  have hgroups : divUp n 5 = (n + 4) / 5 := rfl
  rw [decodedLength_eq, byteCount_padsFor hpos hle, encodedLength, hgroups]
  omega

/-- A byte is found again in the symbols of its encoding. -/
theorem eq_of_carries_encodedByte {src : Nat → Byte} {n i : Nat} {v : Byte} (hi : i < n)
    (h : ∀ b, b < 8 → v.getLsbD (7 - b) = symbolStreamBit (encodedByte src n) (8 * i + b)) : v = src i :=
  byte_ext fun b hb => by rw [h b hb, symbolStreamBit_encodedByte, byteStreamBit_of_byte src hi hb]

/-- Settles O31: no bytes encode to no symbols, which decode to nothing; otherwise what ENCODE wrote is a written and
valid source, whose decoded bytes carry the stream of the bytes encoded. -/
theorem decodeInvertsEncodeCommand : Obligations.DecodeInvertsEncodeCommand := by
  intro s t h hdone
  cases hchecks : encodeChecks s.lat with
  | error f =>
    cases (exec_encode_of_error hchecks).symm.trans h
    cases hdone
  | ok len =>
    cases (exec_encode_of_ok hchecks).symm.trans h
    obtain ⟨hready, rfl⟩ := encodeChecks_ok_iff.1 hchecks
    refine ⟨sourceByte s s.draws, sourceByte_agrees s s.draws, fun u hmem hsrc hlen hroom hfits hapart => ?_⟩
    have hresult : (BitVec.ofNat 32 (encodedLength s.lat.srcLen.toNat)).toNat = encodedLength s.lat.srcLen.toNat := by
      have := hready.room
      have := s.lat.dstCap.isLt
      rw [BitVec.toNat_ofNat]
      omega
    rw [finish_result] at hlen hapart
    have hlength : u.lat.srcLen.toNat = encodedLength s.lat.srcLen.toNat := by rw [hlen, hresult]
    rcases Nat.eq_zero_or_pos s.lat.srcLen.toNat with hzero | hpos
    · have hempty : u.lat.srcLen = 0 := by rw [hlen, hzero]; rfl
      obtain ⟨draws, hexec⟩ := decodeEmptySource u hempty .decode (by simp)
      exact ⟨_, hexec, rfl, rfl, (BitVec.eq_of_toNat_eq hzero).symm, fun i hi => by omega⟩
    · have hholds : SourceHolds u (encodedByte (sourceByte s s.draws) s.lat.srcLen.toNat) := fun i hi => by
        rw [hmem, hsrc, finish_mem]
        exact memFind_memWriteRange_inside s.mem _ (by omega)
      have hvalid := hlength.symm ▸ validSymbols_encodedByte (sourceByte s s.draws) hpos
      have hdecoded := hlength.symm ▸ decodedLength_encodedLength hpos
      have hdecode := decodeSucceeds u _ _ hholds hvalid
      simp only [← decodedLength_eq, hdecoded] at hdecode
      have hu : DecodeReady u.lat s.lat.srcLen.toNat :=
        ⟨by rw [hsrc, hlength]; exact hready.destFits, hroom, hfits, by rwa [hlength, ← hresult]⟩
      obtain ⟨mem, draws, hexec, hbytes, -⟩ := hdecode hu
      refine ⟨_, hexec, rfl, rfl, BitVec.ofNat_toNat .., fun i hi => ?_⟩
      obtain ⟨v, hfind, hcarries⟩ := hbytes i hi
      rw [← eq_of_carries_encodedByte hi hcarries]
      exact hfind

end Sys2Proof.Machine
end

section
/-! What a command runs on, its latched values and the memory, and reset during a command that writes memory
(10_state R31, R35, 70_reset R192, R198). -/

namespace Sys2Proof.Machine

open Sys2Proof.Safety

/-! ### Latched values and memory only -/

/-- Two ends of a command that agree in `STATUS`, `RESULT`, `ERRCODE`, `ERRPOS` and memory. -/
def SameOutcome (t t' : State) : Prop :=
  t.done = t'.done ∧ t.err = t'.err ∧ t.result = t'.result ∧ t.errCode = t'.errCode ∧ t.errPos = t'.errPos ∧
    t.mem = t'.mem

theorem sameOutcome_finish (n : Nat) {s s' : State} (h : s.mem = s'.mem) : SameOutcome (finish n s) (finish n s') :=
  ⟨rfl, rfl, rfl, rfl, rfl, h⟩

theorem sameOutcome_raiseError (f : Failure) {s s' : State} (h : s.mem = s'.mem) :
    SameOutcome (raiseError f s) (raiseError f s') := ⟨rfl, rfl, rfl, rfl, rfl, h⟩

theorem sourceByte_congr {s s' : State} (hlat : s.lat = s'.lat) (hmem : s.mem = s'.mem) :
    sourceByte s = sourceByte s' := by
  funext t i
  rw [sourceByte, sourceByte, hlat, hmem]

theorem declenVerdict_congr {s s' : State} (hlat : s.lat = s'.lat) (hmem : s.mem = s'.mem)
    (hdraws : s.draws = s'.draws) : declenVerdict s = declenVerdict s' := by
  rw [declenVerdict, declenVerdict, sourceByte_congr hlat hmem, hlat, hdraws]

/-- Settles O35: the verdict that decides how a command ends is of the latched values and the bytes it reads, and so
are the bytes it writes. -/
theorem commandSeesLatchedOnly : Obligations.CommandSeesLatchedOnly := by
  intro i s s' t t' hlat hmem hdraws h h'
  have hsource := sourceByte_congr hlat hmem
  show SameOutcome t t'
  cases i
  case enclen =>
    rcases le_or_gt (encodedLength s.lat.srcLen.toNat) Config.lenMax with hfits | hover
    · cases (exec_enclen_of_fits hfits).symm.trans h
      cases (exec_enclen_of_fits (hlat ▸ hfits)).symm.trans h'
      exact hlat ▸ sameOutcome_finish _ hmem
    · cases (exec_enclen_of_overflow hover).symm.trans h
      cases (exec_enclen_of_overflow (hlat ▸ hover)).symm.trans h'
      exact sameOutcome_raiseError _ hmem
  case encode =>
    cases hchecks : encodeChecks s.lat with
    | error f =>
      cases (exec_encode_of_error hchecks).symm.trans h
      cases (exec_encode_of_error (hlat ▸ hchecks)).symm.trans h'
      exact sameOutcome_raiseError f hmem
    | ok n =>
      cases (exec_encode_of_ok hchecks).symm.trans h
      cases (exec_encode_of_ok (hlat ▸ hchecks)).symm.trans h'
      exact sameOutcome_finish n (by simp only [hlat, hmem, hdraws, hsource])
  case decode =>
    cases hchecks : decodeChecks (sourceByte s s.draws) s.lat with
    | error f =>
      have hchecks' : decodeChecks (sourceByte s' s'.draws) s'.lat = .error f := by
        rw [← hsource, ← hdraws, ← hlat, hchecks]
      cases (exec_decode_of_error hchecks).symm.trans h
      cases (exec_decode_of_error hchecks').symm.trans h'
      exact sameOutcome_raiseError f hmem
    | ok n =>
      have hchecks' : decodeChecks (sourceByte s' s'.draws) s'.lat = .ok n := by
        rw [← hsource, ← hdraws, ← hlat, hchecks]
      cases (exec_decode_of_ok hchecks).symm.trans h
      cases (exec_decode_of_ok hchecks').symm.trans h'
      exact sameOutcome_finish n (by simp only [hlat, hmem, hdraws, hsource])
  case declen =>
    have hverdict := declenVerdict_congr hlat hmem hdraws
    cases hlen : decodedLengthOf (declenVerdict s) s.lat.srcAddr.toNat s.lat.srcLen.toNat with
    | error f =>
      cases (exec_declen_of_error hlen).symm.trans h
      cases (exec_declen_of_error (hverdict ▸ hlat ▸ hlen)).symm.trans h'
      exact sameOutcome_raiseError f hmem
    | ok n =>
      cases (exec_declen_of_ok hlen).symm.trans h
      cases (exec_declen_of_ok (hverdict ▸ hlat ▸ hlen)).symm.trans h'
      exact sameOutcome_finish n hmem
  case decblk =>
    cases hverdict : validate (symbolByte s.lat) 8 with
    | error f =>
      cases (exec_decblk_of_error hverdict).symm.trans h
      cases (exec_decblk_of_error (hlat ▸ hverdict)).symm.trans h'
      exact sameOutcome_raiseError f hmem
    | ok p =>
      cases (exec_decblk_of_ok hverdict).symm.trans h
      cases (exec_decblk_of_ok (hlat ▸ hverdict)).symm.trans h'
      exact sameOutcome_finish (byteCount p) hmem
  all_goals
    cases h
    cases h'
    exact sameOutcome_finish 8 hmem

/-! ### Reset during ENCODE and DECODE -/

theorem resetLength_of_encode {s : State} (hbusy : s.busy = true) (hcmd : s.lat.cmd = 0x2) :
    resetLength s = lengthOrNone (encodeChecks s.lat) :=
  resetLength_of_command hbusy ((decodeWord_eq_ok_iff _ .encode).2 hcmd)

theorem resetLength_of_decode {s : State} (hbusy : s.busy = true) (hcmd : s.lat.cmd = 0x3) :
    resetLength s = lengthOrNone (decodeChecks (sourceByte s s.draws) s.lat) :=
  resetLength_of_command hbusy ((decodeWord_eq_ok_iff _ .decode).2 hcmd)

/-- Where ENCODE's checks give a length its operands are ready, and that is the encoded length. -/
theorem lengthOrNone_encodeChecks (l : Latched) :
    lengthOrNone (encodeChecks l) = 0 ∨
      EncodeReady l ∧ lengthOrNone (encodeChecks l) = encodedLength l.srcLen.toNat := by
  by_cases h : lengthOrNone (encodeChecks l) = 0
  · exact .inl h
  · exact .inr (encodeChecks_ok_iff.1 (eq_ok_of_lengthOrNone_ne_zero h))

/-- Where DECODE's checks give a length its symbols are valid, its operands ready, and that is their decoded length. -/
theorem lengthOrNone_decodeChecks (sym : Nat → Byte) (l : Latched) :
    lengthOrNone (decodeChecks sym l) = 0 ∨
      ∃ p, ValidSymbols sym l.srcLen.toNat p ∧ DecodeReady l (decodedLength l.srcLen.toNat p) ∧
        lengthOrNone (decodeChecks sym l) = decodedLength l.srcLen.toNat p := by
  by_cases h : lengthOrNone (decodeChecks sym l) = 0
  · exact .inl h
  · obtain ⟨hlength, hready⟩ := decodeChecks_ok_iff.1 (eq_ok_of_lengthOrNone_ne_zero h)
    obtain ⟨-, hzero⟩ | ⟨p, hvalid, heq⟩ := validSymbols_of_decodedLengthOf_ok hlength
    · exact absurd hzero h
    · exact .inr ⟨p, hvalid, heq ▸ hready, heq⟩

/-- A reset of an ENCODE in flight opens the encoding's bytes at most, and none where a check fails (70_reset R192). -/
theorem resetBlock_during_encode {s : State} (hbusy : s.busy = true) (hcmd : s.lat.cmd = 0x2) :
    (∀ a, a < s.lat.dstAddr.toNat ∨ s.lat.dstAddr.toNat + encodedLength s.lat.srcLen.toNat ≤ a →
      memFind (resetBlock s).mem a = memFind s.mem a) ∧
    (¬EncodeReady s.lat → (resetBlock s).mem = s.mem) := by
  have hlen := resetLength_of_encode hbusy hcmd
  obtain hnone | ⟨hready, hsome⟩ := lengthOrNone_encodeChecks s.lat
  · have hmem := resetBlock_mem_of_resetLength_zero (hlen.trans hnone)
    exact ⟨fun a _ => by rw [hmem], fun _ => hmem⟩
  · refine ⟨fun a ha => memFind_resetBlock_outside ?_, fun hnot => absurd hready hnot⟩
    rwa [hlen, hsome]

/-- A reset of a DECODE in flight opens the bytes of the symbols its checks read at most, and none where a check fails
(70_reset R192). -/
theorem resetBlock_during_decode {s : State} (hbusy : s.busy = true) (hcmd : s.lat.cmd = 0x3) :
    (∀ p a, ValidSymbols (sourceByte s s.draws) s.lat.srcLen.toNat p →
      (a < s.lat.dstAddr.toNat ∨ s.lat.dstAddr.toNat + decodedLength s.lat.srcLen.toNat p ≤ a) →
      memFind (resetBlock s).mem a = memFind s.mem a) ∧
    ((∀ p, ValidSymbols (sourceByte s s.draws) s.lat.srcLen.toNat p →
      ¬DecodeReady s.lat (decodedLength s.lat.srcLen.toNat p)) → (resetBlock s).mem = s.mem) := by
  have hlen := resetLength_of_decode hbusy hcmd
  obtain hnone | ⟨p, hvalid, hready, hsome⟩ := lengthOrNone_decodeChecks (sourceByte s s.draws) s.lat
  · have hmem := resetBlock_mem_of_resetLength_zero (hlen.trans hnone)
    exact ⟨fun _ a _ _ => by rw [hmem], fun _ => hmem⟩
  · refine ⟨fun q a hq ha => memFind_resetBlock_outside ?_, fun hnot => absurd hready (hnot p hvalid)⟩
    obtain rfl : p = q := hvalid.padCount_eq.symm.trans hq.padCount_eq
    rwa [hlen, hsome]

/-- Settles O52: the step is `resetBlock`, during the one command or the other. -/
theorem resetDuringCommand : Obligations.ResetDuringCommand := by
  intro s rest hs hbusy
  refine ⟨fun hcmd => ⟨_, step_of_event hs, ?encode⟩,
    fun hcmd => ⟨sourceByte s s.draws, _, sourceByte_agrees s s.draws, step_of_event hs, ?decode⟩⟩
  case encode => exact resetBlock_during_encode (s := { s with sched := rest }) hbusy hcmd
  case decode => exact resetBlock_during_decode (s := { s with sched := rest }) hbusy hcmd

end Sys2Proof.Machine
end
